-- ==== Sys2Proof/Word.lean ====
section
/-! DEFINITION. The two widths every other file uses: the byte of a buffer and the 5-bit payload value of a symbol
(spec `00_scope.md` R8, R9; `40_symbol_codec.md` R140). -/

namespace Sys2Proof

/-- A byte of a buffer (R9). -/
abbrev Byte := BitVec 8

/-- The 5-bit payload value that one symbol carries (R140). -/
abbrev Group := BitVec 5

end Sys2Proof
end

