-- ==== Sys2Proof/Syntax.lean ====
section
/-! DEFINITION. The records of the two links and the results of the parsers and classifiers: `10_state.md` R36 to R42,
`45_frame_disambiguator.md` R250 to R253. Every field has exactly the width the spec gives it. -/

namespace Sys2Proof

/-- What kind of thing an instruction is: a message of the command link, a message of the data link, or one symbol of a
command's payload (`30_encoding.md` R111, column "link" of the opcode table). -/
inductive Link where
  | command
  | data
  | symbol
  deriving DecidableEq, Repr

/-- The two kinds of channel: CommandChannel and FrameChannel (R2, R47). -/
inductive Channel where
  | command
  | frame
  deriving DecidableEq, Repr

/-- The link a channel reads and writes (R3). -/
def Channel.link : Channel → Link
  | .command => .command
  | .frame => .data

/-- The 9 command variants, as the 9 parsers (R36, R202). -/
inductive CmdVariant where
  | cal
  | ecr
  | bcr
  | pulse
  | rdreg
  | wrreg
  | noop
  | sync
  | trigger
  deriving DecidableEq, Repr

/-- The 3 frame variants, as the 3 parsers (R39, R253). -/
inductive FrameVariant where
  | register
  | blank
  | data
  deriving DecidableEq, Repr

/-- A Header sub-frame (R41, R107). -/
structure Header where
  trigId : BitVec 5
  trigTag : BitVec 5
  bcid : BitVec 15
  deriving DecidableEq, Repr

/-- A Hit sub-frame (R41, R108). -/
structure Hit where
  ccol : BitVec 6
  crow : BitVec 6
  region : BitVec 4
  tot0 : BitVec 4
  tot1 : BitVec 4
  tot2 : BitVec 4
  tot3 : BitVec 4
  deriving DecidableEq, Repr

/-- A sub-frame record (R41). `syncFill` is a record in position 0 only, which `Instr.wf` says. -/
inductive SubFrame where
  | header (h : Header)
  | hit (x : Hit)
  | syncFill
  deriving DecidableEq, Repr

/-- The position of a sub-frame in a DataFrame (R106). -/
inductive SubPos where
  | pos0
  | pos1
  deriving DecidableEq, Repr

/-- The instructions: the command records (R36), the frame records (R39) and the symbol (R140). WrReg is two
constructors, one per `mode`, so that the mode and the number of values cannot disagree (R38). -/
inductive Instr where
  | ecr
  | bcr
  | noop
  | sync
  | pulse (chipId : BitVec 4) (length : BitVec 4)
  | cal (chipId : BitVec 4) (edgeMode : BitVec 1) (edgeDelay : BitVec 3) (edgeWidth : BitVec 6) (auxMode : BitVec 1) (auxDelay : BitVec 5)
  | rdreg (chipId : BitVec 4) (address : BitVec 9)
  | wrreg (chipId : BitVec 4) (address : BitVec 9) (value : BitVec 16)
  | wrreg6 (chipId : BitVec 4) (address : BitVec 9) (v0 v1 v2 v3 v4 v5 : BitVec 16)
  | trigger (bc : BitVec 4) (tag : BitVec 5)
  | blank
  | register (status : BitVec 4) (addr1 : BitVec 10) (val1 : BitVec 16) (addr2 : BitVec 10) (val2 : BitVec 16) (auto1 auto2 err : Bool)
  | data (sub0 sub1 : SubFrame)
  | sym (v : Group)
  deriving DecidableEq, Repr

/-- The link of an instruction. -/
def Instr.link : Instr → Link
  | .ecr | .bcr | .noop | .sync => .command
  | .pulse .. | .cal .. | .rdreg .. | .wrreg .. | .wrreg6 .. | .trigger .. => .command
  | .blank | .register .. | .data .. => .data
  | .sym _ => .symbol

/-- The reason attached to a parser's `none` (R11, R183; the labels are decision D7). -/
inductive NoneReason where
  | noMatch
  | truncated
  | badSymbol
  deriving DecidableEq, Repr

/-- The result of one variant parser: `some(rec, n)` or `none(reason)` (R11, R170, R220). -/
inductive Parse where
  | got (rec : Instr) (n : Nat)
  | fail (r : NoneReason)
  deriving DecidableEq, Repr

/-- The result of one probe round: the record and the bytes it takes, or an undecodable byte (R203, R271, R282). -/
inductive Decoded where
  | instr (i : Instr) (n : Nat)
  | undecodable
  deriving DecidableEq, Repr

/-- The result of `SUB.CLASSIFY` (R250). -/
inductive SubKind where
  | isSync
  | isHeader
  | isHit
  deriving DecidableEq, Repr

/-- The six format tags of a DataFrame (R42, R251). -/
inductive FormatTag where
  | headerHeader
  | headerHit
  | hitHeader
  | hitHit
  | syncHeader
  | syncHit
  deriving DecidableEq, Repr

/-- The result of `FRAME.CLASSIFY` (R253). -/
inductive FrameClass where
  | isRegister
  | isBlank
  | isData (tag : FormatTag)
  deriving DecidableEq, Repr

end Sys2Proof
end

