-- ==== Sys2Proof/Config.lean ====
section
/-! DEFINITION. The configuration: every numeric literal of the block as a named parameter (`00_scope.md` R6), the
constant tables among them (`10_state.md` R31 to R35). The default contents stand in `Machine/Tables.lean`. -/

namespace Sys2Proof

/-- The configuration (R6). It is fixed before the first operation and no operation writes it (R31, R48). -/
structure Config where
  /-- `SYM[0..31]` (R31). -/
  sym : Vector Byte 32
  /-- `TRIG[1..15]` (R33); entry `k` here is `TRIG[k+1]`, there being no `TRIG[0]`. -/
  trig : Vector Byte 15
  idEcr : BitVec 16
  idBcr : BitVec 16
  idNoop : BitVec 16
  idSync : BitVec 16
  idPulse : BitVec 16
  idCal : BitVec 16
  idRdReg : BitVec 16
  idWrReg : BitVec 16
  /-- `BLANK_CODE` (R103). -/
  blankCode : Byte
  /-- The five legal aurora codes (R105). -/
  aurAA : Byte
  aurAE : Byte
  aurEA : Byte
  aurEE : Byte
  aurErr : Byte
  /-- `HDR_ID` (R107). -/
  hdrId : BitVec 7
  /-- `HDR_DISC_WIDTH` (R250). -/
  hdrDiscWidth : Nat
  /-- `CMD_PROBE_ORDER` (R202). -/
  cmdProbeOrder : List CmdVariant
  /-- `FRAME_PROBE_ORDER` (R271). -/
  frameProbeOrder : List FrameVariant
  /-- `FRAME_LEN` (R6), the bytes of a frame. -/
  frameLen : Nat
  /-- `BUF_MAX` (R81); `none` is unbounded. -/
  bufMax : Option Nat
  /-- `SEQ_MAX` (R81); `none` is unbounded. -/
  seqMax : Option Nat
  deriving DecidableEq, Repr

/-- The probe order of R202. -/
def cmdOrderOfR202 : List CmdVariant :=
  [.cal, .ecr, .bcr, .pulse, .rdreg, .wrreg, .noop, .sync, .trigger]

/-- The probe order of R271. -/
def frameOrderOfR271 : List FrameVariant := [.register, .blank, .data]

end Sys2Proof
end

