-- ==== Sys2Proof/Machine/Operands.lean ====
section
/-! DEFINITION. How operands stand on the wire: the symbol codec and the trigger table (`40_symbol_codec.md`,
`10_state.md` R31 to R33), byte order (`20_memory.md` R64 to R68), the payload bit vectors and their 5-bit groups
(`30_encoding.md` R93 to R98), the frame words (R103 to R109), and the wire lengths (R119). -/

namespace Sys2Proof

/-- The index of the first entry equal to `b`, counted from `k`. -/
def indexFrom (b : Byte) : List Byte → Nat → Option Nat
  | [], _ => none
  | x :: xs, k => if x = b then some k else indexFrom b xs (k + 1)

/-- `SYM.ENC(v)` (R140). -/
def symEnc (c : Config) (v : Group) : Byte := c.sym[v.toNat]'v.isLt

/-- `SYM.DEC(b)` (R141): the inverse `UNSYM` of `SYM` (R32), nothing for a byte that is no symbol. -/
def symDec (c : Config) (b : Byte) : Option Group :=
  (indexFrom b c.sym.toList 0).map (BitVec.ofNat 5)

/-- `TRIG[bc]` (R33): nothing for `bc = 0`, "all-zero pattern disallowed". -/
def trigOf (c : Config) (bc : BitVec 4) : Option Byte :=
  if bc = 0 then none else c.trig.toList[bc.toNat - 1]?

/-- `UNTRIG(b)` (R33): a bitmap from 1 to 15 or nothing. -/
def untrig (c : Config) (b : Byte) : Option (BitVec 4) :=
  (indexFrom b c.trig.toList 0).map fun i => BitVec.ofNat 4 (i + 1)

/-- The two bytes of an identifier, low byte first (R64). -/
def idLE (x : BitVec 16) : Byte × Byte := (x.extractLsb' 0 8, x.extractLsb' 8 8)

/-- The two bytes of an identifier, high byte first: Sync alone (R65). -/
def idBE (x : BitVec 16) : Byte × Byte := (x.extractLsb' 8 8, x.extractLsb' 0 8)

/-- The `k` groups of a payload vector, the most significant first: group `i` is `P[5(k-i)-1 : 5(k-i)-5]` (R93). -/
def cutGroups (k : Nat) (p : BitVec (5 * k)) : List Group :=
  (List.range k).map fun i => p.extractLsb' (5 * (k - 1 - i)) 5

/-- The number the groups spell, the first the most significant, after a prefix worth `a`. -/
def joinNat : List Group → Nat → Nat
  | [], a => a
  | v :: vs, a => joinNat vs (32 * a + v.toNat)

/-- The payload vector made of the groups, "the first symbol ends most significant" (R171). -/
def joinGroups (w : Nat) (gs : List Group) : BitVec w := BitVec.ofNat w (joinNat gs 0)

/-- `UNSYMS` (R171) on the bytes from offset `q` on: the values of the first `k` bytes as symbols, or nothing if one of
them is no symbol ("not coerce to zero"). -/
def unsyms (c : Config) : Nat → List Byte → Option (List Group)
  | 0, _ => some []
  | _ + 1, [] => none
  | k + 1, b :: bs =>
    match symDec c b with
    | none => none
    | some v =>
      match unsyms c k bs with
      | none => none
      | some vs => some (v :: vs)

/-- The payload of a Pulse: `chipId ‖ 0 ‖ length ‖ 0` (R94). -/
def payloadPulse (chipId length : BitVec 4) : BitVec (5 * 2) :=
  (chipId ++ 0#1 ++ length ++ 0#1 : BitVec 10)

/-- The payload of a Cal (R95). -/
def payloadCal (chipId : BitVec 4) (edgeMode : BitVec 1) (edgeDelay : BitVec 3) (edgeWidth : BitVec 6)
    (auxMode : BitVec 1) (auxDelay : BitVec 5) : BitVec (5 * 4) :=
  (chipId ++ edgeMode ++ edgeDelay ++ edgeWidth ++ auxMode ++ auxDelay : BitVec 20)

/-- The payload of a RdReg: `chipId ‖ 0 ‖ address ‖ 000000` (R96). -/
def payloadRdReg (chipId : BitVec 4) (address : BitVec 9) : BitVec (5 * 4) :=
  (chipId ++ 0#1 ++ address ++ 0#6 : BitVec 20)

/-- The payload of a WrReg with `mode = 0` (R97). -/
def payloadWrReg (chipId : BitVec 4) (address : BitVec 9) (value : BitVec 16) : BitVec (5 * 6) :=
  (chipId ++ 0#1 ++ address ++ value : BitVec 30)

/-- The payload of a WrReg with `mode = 1` (R98). -/
def payloadWrReg6 (chipId : BitVec 4) (address : BitVec 9) (v0 v1 v2 v3 v4 v5 : BitVec 16) : BitVec (5 * 22) :=
  (chipId ++ 1#1 ++ address ++ v0 ++ v1 ++ v2 ++ v3 ++ v4 ++ v5 : BitVec 110)

/-- The bytes of a 64-bit frame word, `b[i] = W[63-8i : 56-8i]` (R68). -/
def bytesOf64 (w : BitVec 64) : List Byte :=
  [w.extractLsb' 56 8, w.extractLsb' 48 8, w.extractLsb' 40 8, w.extractLsb' 32 8,
   w.extractLsb' 24 8, w.extractLsb' 16 8, w.extractLsb' 8 8, w.extractLsb' 0 8]

/-- `word64` of the first 8 bytes (`44_frame_pack_unpack.md`), or nothing when fewer than 8 are there. -/
def word64 : List Byte → Option (BitVec 64)
  | b0 :: b1 :: b2 :: b3 :: b4 :: b5 :: b6 :: b7 :: _ =>
    some (b0 ++ b1 ++ b2 ++ b3 ++ b4 ++ b5 ++ b6 ++ b7)
  | _ => none

/-- The 64-bit word of a BlankFrame (R103). -/
def wordBlank (c : Config) : BitVec 64 := c.blankCode ++ 0#56

/-- The 64-bit word of a RegisterFrame with aurora code `a` (R104). -/
def wordRegister (a : Byte) (status : BitVec 4) (addr1 : BitVec 10) (val1 : BitVec 16) (addr2 : BitVec 10)
    (val2 : BitVec 16) : BitVec 64 :=
  a ++ status ++ addr1 ++ val1 ++ addr2 ++ val2

/-- The SyncFill word `BLANK_CODE ‖ 0x000000` (R109). -/
def syncWord (c : Config) : BitVec 32 := c.blankCode ++ 0#24

/-- `SUB.PACK(s)` (R227; layouts R107 to R109). -/
def subPack (c : Config) : SubFrame → BitVec 32
  | .header h => c.hdrId ++ h.trigId ++ h.trigTag ++ h.bcid
  | .hit x => x.ccol ++ x.crow ++ x.region ++ x.tot0 ++ x.tot1 ++ x.tot2 ++ x.tot3
  | .syncFill => syncWord c

/-- The command variant of a record (R36); WrReg is one variant whatever its `mode`. -/
def commandVariant : Instr → Option CmdVariant
  | .ecr => some .ecr
  | .bcr => some .bcr
  | .noop => some .noop
  | .sync => some .sync
  | .pulse .. => some .pulse
  | .cal .. => some .cal
  | .rdreg .. => some .rdreg
  | .wrreg .. => some .wrreg
  | .wrreg6 .. => some .wrreg
  | .trigger .. => some .trigger
  | .blank | .register .. | .data .. | .sym _ => none

/-- The frame variant of a record (R39). -/
def frameVariant : Instr → Option FrameVariant
  | .blank => some .blank
  | .register .. => some .register
  | .data .. => some .data
  | .ecr | .bcr | .noop | .sync => none
  | .pulse .. | .cal .. | .rdreg .. | .wrreg .. | .wrreg6 .. | .trigger .. | .sym _ => none

/-- `cmdlen` and `framelen` (R119), a frame's being `FRAME_LEN` (R6); one byte for a symbol (R140). -/
def wireLen (c : Config) : Instr → Nat
  | .ecr | .bcr | .noop | .sync => 2
  | .pulse .. => 4
  | .cal .. | .rdreg .. => 6
  | .wrreg .. => 8
  | .wrreg6 .. => 24
  | .trigger .. => 2
  | .blank | .register .. | .data .. => c.frameLen
  | .sym _ => 1

end Sys2Proof
end

