-- ==== Sys2Proof/Machine/Flags.lean ====
section
/-! DEFINITION. The boolean and tag results of the block (`10_state.md` R45): the aurora code and its three flags
(`44_frame_pack_unpack.md` R223, R224), the frame-type disambiguator (`45_frame_disambiguator.md`), the classes of records
that do not survive a round trip (R254, R255, R40), and the pixel coordinates of a Hit (R230). -/

namespace Sys2Proof

/-- `AURORA.ENC(auto1, auto2, err)` (R223): the error flag wins. -/
def auroraEnc (c : Config) (auto1 auto2 err : Bool) : Byte :=
  if err then c.aurErr
  else if auto1 && auto2 then c.aurAA
  else if auto1 then c.aurAE
  else if auto2 then c.aurEA
  else c.aurEE

/-- `AURORA.DEC(a)` (R224): total, every byte outside the four non-error codes gives `(0, 0, 1)`. -/
def auroraDec (c : Config) (a : Byte) : Bool × Bool × Bool :=
  if a = c.aurAA then (true, true, false)
  else if a = c.aurAE then (true, false, false)
  else if a = c.aurEA then (false, true, false)
  else if a = c.aurEE then (false, false, false)
  else (false, false, true)

/-- `AURORA.LEGAL(a)`: `a` is one of the 5 codes (R224). -/
def auroraLegal (c : Config) (a : Byte) : Bool :=
  a == c.aurAA || a == c.aurAE || a == c.aurEA || a == c.aurEE || a == c.aurErr

/-- The discriminator test of R250: the `HDR_DISC_WIDTH` leading bits of the sub-frame equal those of `HDR_ID`. -/
def isHeaderWord (c : Config) (s : BitVec 32) : Bool :=
  (s >>> (32 - c.hdrDiscWidth)).toNat == (c.hdrId >>> (7 - c.hdrDiscWidth)).toNat

/-- `SUB.CLASSIFY(S, position)` (R250): the sync test first, and in position 0 only. -/
def subClassify (c : Config) (s : BitVec 32) (position : SubPos) : SubKind :=
  if position = .pos0 ∧ s = syncWord c then .isSync
  else if isHeaderWord c s then .isHeader
  else .isHit

/-- The Header whose bits are `s` (R229). -/
def headerOf (s : BitVec 32) : Header where
  trigId := s.extractLsb' 20 5
  trigTag := s.extractLsb' 15 5
  bcid := s.extractLsb' 0 15

/-- The Hit whose bits are `s` (R229). -/
def hitOf (s : BitVec 32) : Hit where
  ccol := s.extractLsb' 26 6
  crow := s.extractLsb' 20 6
  region := s.extractLsb' 16 4
  tot0 := s.extractLsb' 12 4
  tot1 := s.extractLsb' 8 4
  tot2 := s.extractLsb' 4 4
  tot3 := s.extractLsb' 0 4

/-- `SUB.UNPACK(S, position)` (R229). -/
def subUnpack (c : Config) (s : BitVec 32) (position : SubPos) : SubFrame :=
  match subClassify c s position with
  | .isSync => .syncFill
  | .isHeader => .header (headerOf s)
  | .isHit => .hit (hitOf s)

/-- `FMT.TAG(rec)` (R251): nothing where the pair is no Data record (SyncFill in position 1, R41). -/
def fmtTag : SubFrame → SubFrame → Option FormatTag
  | .header _, .header _ => some .headerHeader
  | .header _, .hit _ => some .headerHit
  | .hit _, .header _ => some .hitHeader
  | .hit _, .hit _ => some .hitHit
  | .syncFill, .header _ => some .syncHeader
  | .syncFill, .hit _ => some .syncHit
  | _, .syncFill => none

/-- `FMT.TAG` of two sub-frame words (R251, "on the byte level"). -/
def fmtTagOfWords (c : Config) (s0 s1 : BitVec 32) : FormatTag :=
  match subClassify c s0 .pos0, subClassify c s1 .pos1 with
  | .isSync, .isHeader => .syncHeader
  | .isSync, _ => .syncHit
  | .isHeader, .isHeader => .headerHeader
  | .isHeader, _ => .headerHit
  | .isHit, .isHeader => .hitHeader
  | .isHit, _ => .hitHit

/-- `FRAME.CLASSIFY` of the 8 bytes of a frame word (R253). -/
def frameClassifyWord (c : Config) (w : BitVec 64) : FrameClass :=
  if auroraLegal c (w.extractLsb' 56 8) then .isRegister
  else if w = wordBlank c then .isBlank
  else .isData (fmtTagOfWords c (w.extractLsb' 32 32) (w.extractLsb' 0 32))

/-- `FRAME.CLASSIFY(IN, p)` on the bytes from `p` on (R253): defined when 8 bytes are there. -/
def frameClassify (c : Config) (bs : List Byte) : Option FrameClass :=
  (word64 bs).map (frameClassifyWord c)

/-- `HIT.PIXEL(x, i)` (R230). PRESUMED, log 17. -/
def hitPixel (x : Hit) (i : BitVec 2) : BitVec 9 × BitVec 9 :=
  (x.ccol ++ x.region.extractLsb' 0 1 ++ i, x.crow ++ x.region.extractLsb' 1 3)

/-- A *header-like* Hit (R254). -/
def headerLike (c : Config) (x : Hit) : Bool := subClassify c (subPack c (.hit x)) .pos1 == .isHeader

/-- A *sync-like* Hit (R254). -/
def syncLike (c : Config) (x : Hit) : Bool := subPack c (.hit x) == syncWord c

/-- No header-like Hit, and no sync-like Hit in position 0 (R231 (c)). -/
def subStable (c : Config) (position : SubPos) : SubFrame → Bool
  | .hit x => !headerLike c x && !(position == .pos0 && syncLike c x)
  | .header _ => true
  | .syncFill => true

/-- A *register-like* DataFrame: `sub0` is a Hit whose first byte is an aurora code (R255 (a)); "A Header or SyncFill in
position 0 is never register-like". -/
def registerLike (c : Config) : SubFrame → Bool
  | .hit x => auroraLegal c ((subPack c (.hit x)).extractLsb' 24 8)
  | .header _ => false
  | .syncFill => false

/-- The *blank-like* DataFrame: "exactly one, `DATA SYNCFILL ; HIT 0, 0, 0, 0, 0, 0, 0`" (R255 (b)). -/
def blankLike : SubFrame → SubFrame → Bool
  | .syncFill, .hit x => x == { ccol := 0, crow := 0, region := 0, tot0 := 0, tot1 := 0, tot2 := 0, tot3 := 0 }
  | _, _ => false

/-- A Header that spells the sync word, which position 0 reads as SyncFill (R250). DESIGN CHOICE, log 13: R231 (c) does not
mention it; the default `HDR_ID` has none. -/
def headerReadAsSync (c : Config) : SubFrame → Bool
  | .header h => subPack c (.header h) == syncWord c
  | _ => false

/-- A DataFrame that a channel does not read back on account of a Header: one in position 0 that spells the sync word, or
whose first byte is an aurora code, or one after SyncFill whose word is 0, which spells a BlankFrame. DESIGN CHOICE, log 34:
R255 and R275 do not mention them; the default `HDR_ID` has none. -/
def headerCollides (c : Config) : SubFrame → SubFrame → Bool
  | .header h, _ =>
    headerReadAsSync c (.header h) || auroraLegal c ((subPack c (.header h)).extractLsb' 24 8)
  | .syncFill, .header h => subPack c (.header h) == 0
  | _, _ => false

/-- A *canonical* Register record: `err = 1` implies both auto flags 0 (R40). -/
def registerCanonical (auto1 auto2 err : Bool) : Bool := !err || (!auto1 && !auto2)

/-- A *channel-stable* frame record (R275). -/
def channelStable (c : Config) : Instr → Bool
  | .blank => true
  | .register _ _ _ _ _ auto1 auto2 err => registerCanonical auto1 auto2 err
  | .data sub0 sub1 =>
    subStable c .pos0 sub0 && subStable c .pos1 sub1 && !registerLike c sub0 && !blankLike sub0 sub1
  | _ => false

/-- A frame record that a channel reads back: channel-stable, and without the Headers of log 34. -/
def channelReadsBack (c : Config) (i : Instr) : Bool :=
  channelStable c i &&
    match i with
    | .data sub0 sub1 => !headerCollides c sub0 sub1
    | _ => true

end Sys2Proof
end

