-- ==== Sys2Proof/Machine/Tables.lean ====
section
/-! DEFINITION. The default contents of the configuration (`00_scope.md` R6). The identifiers, the blank code and the
counts are the source's; `SYM`, `TRIG`, the aurora codes and `HDR_ID` are PRESUMED (the spec marks them "from general
knowledge": logs 4 to 7). -/

namespace Sys2Proof

/-- The default `SYM` (`30_encoding.md` R101). PRESUMED, log 4. -/
def symTable : Vector Byte 32 :=
  #v[0x6A, 0x6C, 0x71, 0x72, 0x74, 0x8B, 0x8D, 0x8E, 0x93, 0x95, 0x96, 0x99, 0x9A, 0x9C, 0xA3, 0xA5,
     0xA6, 0xA9, 0xAA, 0xAC, 0xB1, 0xB2, 0xB4, 0xC3, 0xC5, 0xC6, 0xC9, 0xCA, 0xCC, 0xD1, 0xD2, 0xD4]

/-- The default `TRIG[1..15]` (`30_encoding.md` R100). PRESUMED, log 5. -/
def trigTable : Vector Byte 15 :=
  #v[0x2B, 0x2D, 0x2E, 0x33, 0x35, 0x36, 0x39, 0x3A, 0x3C, 0x4B, 0x4D, 0x4E, 0x53, 0x55, 0x56]

/-- The default configuration (R6). -/
def Config.rd53a : Config where
  sym := symTable
  trig := trigTable
  idEcr := 0x5A5A
  idBcr := 0x5959
  idNoop := 0x6969
  idSync := 0x417E
  idPulse := 0x5C5C
  idCal := 0x6363
  idRdReg := 0x6565
  idWrReg := 0x6666
  blankCode := 0x1E
  aurAA := 0xB4
  aurAE := 0x55
  aurEA := 0x99
  aurEE := 0xD2
  aurErr := 0xCC
  hdrId := 0b0000001
  hdrDiscWidth := 7
  cmdProbeOrder := cmdOrderOfR202
  frameProbeOrder := frameOrderOfR271
  frameLen := 8
  bufMax := none
  seqMax := none

end Sys2Proof
end

