-- ==== Sys2Proof/WellFormed.lean ====
section
/-! DEFINITION. What is a record and what is a configuration: `10_state.md` R37, R41 and `00_scope.md` R7. -/

namespace Sys2Proof

/-- A term of `Instr` that is a record of the spec: a Trigger's bitmap is not 0 (R37) and SyncFill does not stand in
position 1 (R41). Every other condition of R36 to R41 is in the types. -/
def Instr.wf : Instr → Bool
  | .trigger bc _ => bc != 0
  | .data _ sub1 => sub1 != .syncFill
  | _ => true

/-- The sequence holds records of the channel's kind only (R47). -/
def seqWf (ch : Channel) (seq : List Instr) : Bool :=
  seq.all fun i => i.wf && i.link == ch.link

/-- R7 (a): `SYM` is injective. -/
def Config.symWf (c : Config) : Bool := decide c.sym.toList.Nodup

/-- R7 (b): `TRIG` is injective. -/
def Config.trigWf (c : Config) : Bool := decide c.trig.toList.Nodup

/-- R7 (c): the five aurora codes are pairwise distinct and none equals `BLANK_CODE`. -/
def Config.auroraWf (c : Config) : Bool :=
  decide [c.blankCode, c.aurAA, c.aurAE, c.aurEA, c.aurEE, c.aurErr].Nodup

/-- R7 (d): `1 <= HDR_DISC_WIDTH <= 7`. -/
def Config.discWf (c : Config) : Bool := decide (1 ≤ c.hdrDiscWidth ∧ c.hdrDiscWidth ≤ 7)

/-- The probe orders are orders OF the 9 and the 3 parsers (R6), each parser once. DEDUCED, log 8. -/
def Config.orderWf (c : Config) : Bool :=
  c.cmdProbeOrder.isPerm cmdOrderOfR202 && c.frameProbeOrder.isPerm frameOrderOfR271

/-- The frame layouts R103 to R106 fill 64 bits, so `FRAME_LEN` is 8 and no other number. DEDUCED, log 26. -/
def Config.frameWf (c : Config) : Bool := decide (c.frameLen = 8)

/-- A well-formed configuration (R7), with what R6 implies of the probe orders and of `FRAME_LEN`. -/
def Config.wf (c : Config) : Bool := c.symWf && c.trigWf && c.auroraWf && c.discWf && c.orderWf && c.frameWf

/-- The identifiers as the byte pairs that stand on the link (R64, R65). -/
def Config.idPairs (c : Config) : List (Byte × Byte) :=
  let le (x : BitVec 16) : Byte × Byte := (x.extractLsb' 0 8, x.extractLsb' 8 8)
  [le c.idEcr, le c.idBcr, le c.idNoop, (c.idSync.extractLsb' 8 8, c.idSync.extractLsb' 0 8), le c.idPulse,
   le c.idCal, le c.idRdReg, le c.idWrReg]

/-- R7 (e): no byte of an identifier is in `SYM` or in `TRIG`, and the two tables share no byte. -/
def Config.bytesSeparate (c : Config) : Bool :=
  (c.idPairs.all fun p =>
      !c.sym.toList.contains p.1 && !c.sym.toList.contains p.2 &&
        !c.trig.toList.contains p.1 && !c.trig.toList.contains p.2) &&
    c.sym.toList.all fun b => !c.trig.toList.contains b

/-- R7 (f): the eight identifiers are pairwise distinct as byte pairs. -/
def Config.idsDistinct (c : Config) : Bool := decide c.idPairs.Nodup

/-- R7 (e) and (f) together, which the defaults have and a configuration need not have. -/
def Config.separate (c : Config) : Bool := c.bytesSeparate && c.idsDistinct

end Sys2Proof
end

