-- ==== Sys2Proof/Decode.lean ====
section
/-! DEFINITION. The decoder and the encoder of both links: the variant parsers UNPACK and FUNPACK
(`42_command_unpack.md`, `44_frame_pack_unpack.md`), one probe round of a channel (`43_command_channel.md` R202, R203;
`46_frame_channel.md` R271), the packers PACK and FPACK (`41_command_pack.md`, `44_frame_pack_unpack.md`), and the reading
of a word of `spec/opcode_table.json`.

A parser takes the bytes from its probe position to the end of the buffer, `IN[p ..]`: by R170 its result depends on
nothing else, and their number is `max_len`. -/

namespace Sys2Proof

/-! ## The command parsers -/

/-- Check (a) of R170: the two identifier bytes match; the bytes after them. -/
def afterId (p : Byte × Byte) : List Byte → Option (List Byte)
  | b0 :: b1 :: rest => if b0 = p.1 ∧ b1 = p.2 then some rest else none
  | _ => none

/-- `UNPACK.ECR` (R172). -/
def unpackEcr (c : Config) (bs : List Byte) : Parse :=
  match afterId (idLE c.idEcr) bs with
  | none => .fail .noMatch
  | some _ => .got .ecr 2

/-- `UNPACK.BCR` (R173). -/
def unpackBcr (c : Config) (bs : List Byte) : Parse :=
  match afterId (idLE c.idBcr) bs with
  | none => .fail .noMatch
  | some _ => .got .bcr 2

/-- `UNPACK.NOOP` (R174). -/
def unpackNoop (c : Config) (bs : List Byte) : Parse :=
  match afterId (idLE c.idNoop) bs with
  | none => .fail .noMatch
  | some _ => .got .noop 2

/-- `UNPACK.SYNC` (R175): compared big-endian. -/
def unpackSync (c : Config) (bs : List Byte) : Parse :=
  match afterId (idBE c.idSync) bs with
  | none => .fail .noMatch
  | some _ => .got .sync 2

/-- `UNPACK.PULSE` (R176); the pad bits `P[5]` and `P[0]` are not examined. -/
def unpackPulse (c : Config) (bs : List Byte) : Parse :=
  match afterId (idLE c.idPulse) bs with
  | none => .fail .noMatch
  | some rest =>
    if bs.length < 4 then .fail .truncated
    else
      match unsyms c 2 rest with
      | none => .fail .badSymbol
      | some gs =>
        let p := joinGroups 10 gs
        .got (.pulse (p.extractLsb' 6 4) (p.extractLsb' 1 4)) 4

/-- `UNPACK.CAL` (R177). -/
def unpackCal (c : Config) (bs : List Byte) : Parse :=
  match afterId (idLE c.idCal) bs with
  | none => .fail .noMatch
  | some rest =>
    if bs.length < 6 then .fail .truncated
    else
      match unsyms c 4 rest with
      | none => .fail .badSymbol
      | some gs =>
        let p := joinGroups 20 gs
        .got (.cal (p.extractLsb' 16 4) (p.extractLsb' 15 1) (p.extractLsb' 12 3) (p.extractLsb' 6 6)
          (p.extractLsb' 5 1) (p.extractLsb' 0 5)) 6

/-- `UNPACK.RDREG` (R178); the pad bits `P[15]` and `P[5:0]` are not examined. -/
def unpackRdReg (c : Config) (bs : List Byte) : Parse :=
  match afterId (idLE c.idRdReg) bs with
  | none => .fail .noMatch
  | some rest =>
    if bs.length < 6 then .fail .truncated
    else
      match unsyms c 4 rest with
      | none => .fail .badSymbol
      | some gs =>
        let p := joinGroups 20 gs
        .got (.rdreg (p.extractLsb' 16 4) (p.extractLsb' 6 9)) 6

/-- The `mode = 0` end of `UNPACK.WRREG` (R179): 6 symbols. -/
def unpackWrRegSingle (c : Config) (rest : List Byte) : Parse :=
  match unsyms c 6 rest with
  | none => .fail .badSymbol
  | some gs =>
    let p := joinGroups 30 gs
    .got (.wrreg (p.extractLsb' 26 4) (p.extractLsb' 16 9) (p.extractLsb' 0 16)) 8

/-- The `mode = 1` end of `UNPACK.WRREG` (R179): 22 symbols. -/
def unpackWrRegSextuple (c : Config) (rest : List Byte) : Parse :=
  match unsyms c 22 rest with
  | none => .fail .badSymbol
  | some gs =>
    let p := joinGroups 110 gs
    .got (.wrreg6 (p.extractLsb' 106 4) (p.extractLsb' 96 9) (p.extractLsb' 80 16) (p.extractLsb' 64 16)
      (p.extractLsb' 48 16) (p.extractLsb' 32 16) (p.extractLsb' 16 16) (p.extractLsb' 0 16)) 24

/-- `UNPACK.WRREG` (R179): the mode is bit 0 of the first symbol's value, read after 8 bytes are known to exist; the long
form checks for 24 before it reads on (R116, R319). -/
def unpackWrReg (c : Config) (bs : List Byte) : Parse :=
  match afterId (idLE c.idWrReg) bs with
  | none => .fail .noMatch
  | some rest =>
    if bs.length < 8 then .fail .truncated
    else
      match unsyms c 1 rest with
      | some [g0] =>
        if g0.getLsbD 0 then
          if bs.length < 24 then .fail .truncated else unpackWrRegSextuple c rest
        else unpackWrRegSingle c rest
      | _ => .fail .badSymbol

/-- `UNPACK.TRIGGER` (R180). -/
def unpackTrigger (c : Config) (bs : List Byte) : Parse :=
  match bs with
  | [] => .fail .noMatch
  | b0 :: rest =>
    match untrig c b0 with
    | none => .fail .noMatch
    | some bc =>
      match rest with
      | [] => .fail .truncated
      | b1 :: _ =>
        match symDec c b1 with
        | none => .fail .badSymbol
        | some tag => .got (.trigger bc tag) 2

/-- The parser of a command variant (R170). -/
def unpackCommand (c : Config) (v : CmdVariant) (bs : List Byte) : Parse :=
  match v with
  | .cal => unpackCal c bs
  | .ecr => unpackEcr c bs
  | .bcr => unpackBcr c bs
  | .pulse => unpackPulse c bs
  | .rdreg => unpackRdReg c bs
  | .wrreg => unpackWrReg c bs
  | .noop => unpackNoop c bs
  | .sync => unpackSync c bs
  | .trigger => unpackTrigger c bs

/-! ## The frame parsers -/

/-- The frame word at the start of `bs`, when `FRAME_LEN` bytes are there: "`none(Truncated)` when `max_len < 8`, before
reading any byte" (R220). -/
def frameWord (c : Config) (bs : List Byte) : Option (BitVec 64) :=
  if bs.length < c.frameLen then none else word64 bs

/-- `FUNPACK.BLANK` (R222). -/
def unpackBlank (c : Config) (bs : List Byte) : Parse :=
  match frameWord c bs with
  | none => .fail .truncated
  | some w => if w = wordBlank c then .got .blank c.frameLen else .fail .noMatch

/-- `FUNPACK.REGISTER` (R226): an illegal aurora byte is refused (C3). -/
def unpackRegister (c : Config) (bs : List Byte) : Parse :=
  match frameWord c bs with
  | none => .fail .truncated
  | some w =>
    let a : Byte := w.extractLsb' 56 8
    if auroraLegal c a then
      let f := auroraDec c a
      .got (.register (w.extractLsb' 52 4) (w.extractLsb' 42 10) (w.extractLsb' 26 16) (w.extractLsb' 16 10)
        (w.extractLsb' 0 16) f.1 f.2.1 f.2.2) c.frameLen
    else .fail .noMatch

/-- `FUNPACK.DATA` (R229): with 8 bytes there it never fails. -/
def unpackData (c : Config) (bs : List Byte) : Parse :=
  match frameWord c bs with
  | none => .fail .truncated
  | some w =>
    .got (.data (subUnpack c (w.extractLsb' 32 32) .pos0) (subUnpack c (w.extractLsb' 0 32) .pos1)) c.frameLen

/-- The parser of a frame variant (R220). -/
def unpackFrame (c : Config) (v : FrameVariant) (bs : List Byte) : Parse :=
  match v with
  | .register => unpackRegister c bs
  | .blank => unpackBlank c bs
  | .data => unpackData c bs

/-! ## One probe round -/

/-- The first success among the results of the parsers in `order` (R203, R271, R289). -/
def probeIn {V : Type} (parser : V → Parse) : List V → Decoded
  | [] => .undecodable
  | v :: vs =>
    match parser v with
    | .got r n => .instr r n
    | .fail _ => probeIn parser vs

/-- One probe round of a channel at the start of `bs` (R203, R271). -/
def probe (c : Config) (ch : Channel) (bs : List Byte) : Decoded :=
  match ch with
  | .command => probeIn (fun v => unpackCommand c v bs) c.cmdProbeOrder
  | .frame => probeIn (fun v => unpackFrame c v bs) c.frameProbeOrder

/-- The symbol at the start of `bs` (R141). -/
def decodeSymbol (c : Config) (bs : List Byte) : Decoded :=
  match bs with
  | [] => .undecodable
  | b :: _ =>
    match symDec c b with
    | none => .undecodable
    | some v => .instr (.sym v) 1

/-- The decoder: what stands at the start of `bs` on a link, total on every byte string. -/
def decode (c : Config) (l : Link) (bs : List Byte) : Decoded :=
  match l with
  | .command => probe c .command bs
  | .data => probe c .frame bs
  | .symbol => decodeSymbol c bs

/-! ## The encoder -/

/-- The identifier bytes then the payload's symbols: formats C2, C4, C6, C22 (R93). -/
def packPayload (c : Config) (id : BitVec 16) (k : Nat) (p : BitVec (5 * k)) : List Byte :=
  (idLE id).1 :: (idLE id).2 :: (cutGroups k p).map (symEnc c)

/-- `PACK.ECR` (R151). -/
def packEcr (c : Config) : List Byte := [(idLE c.idEcr).1, (idLE c.idEcr).2]

/-- `PACK.BCR` (R152). -/
def packBcr (c : Config) : List Byte := [(idLE c.idBcr).1, (idLE c.idBcr).2]

/-- `PACK.NOOP` (R153). -/
def packNoop (c : Config) : List Byte := [(idLE c.idNoop).1, (idLE c.idNoop).2]

/-- `PACK.SYNC` (R154): "the one variant written big-endian". -/
def packSync (c : Config) : List Byte := [(idBE c.idSync).1, (idBE c.idSync).2]

/-- `PACK.PULSE` (R155). -/
def packPulse (c : Config) (chipId length : BitVec 4) : List Byte :=
  packPayload c c.idPulse 2 (payloadPulse chipId length)

/-- `PACK.CAL` (R156). -/
def packCal (c : Config) (chipId : BitVec 4) (edgeMode : BitVec 1) (edgeDelay : BitVec 3) (edgeWidth : BitVec 6)
    (auxMode : BitVec 1) (auxDelay : BitVec 5) : List Byte :=
  packPayload c c.idCal 4 (payloadCal chipId edgeMode edgeDelay edgeWidth auxMode auxDelay)

/-- `PACK.RDREG` (R157). -/
def packRdReg (c : Config) (chipId : BitVec 4) (address : BitVec 9) : List Byte :=
  packPayload c c.idRdReg 4 (payloadRdReg chipId address)

/-- `PACK.WRREG` with `mode = 0` (R158). -/
def packWrReg (c : Config) (chipId : BitVec 4) (address : BitVec 9) (value : BitVec 16) : List Byte :=
  packPayload c c.idWrReg 6 (payloadWrReg chipId address value)

/-- `PACK.WRREG` with `mode = 1` (R158). -/
def packWrReg6 (c : Config) (chipId : BitVec 4) (address : BitVec 9) (v0 v1 v2 v3 v4 v5 : BitVec 16) : List Byte :=
  packPayload c c.idWrReg 22 (payloadWrReg6 chipId address v0 v1 v2 v3 v4 v5)

/-- `PACK.TRIGGER` (R159): nothing for `bc = 0`, which is no record (R37, R115). -/
def packTrigger (c : Config) (bc : BitVec 4) (tag : Group) : Option (List Byte) :=
  (trigOf c bc).map fun p => [p, symEnc c tag]

/-- `FPACK.BLANK` (R221). -/
def packBlank (c : Config) : List Byte := bytesOf64 (wordBlank c)

/-- `FPACK.REGISTER` (R225). -/
def packRegister (c : Config) (status : BitVec 4) (addr1 : BitVec 10) (val1 : BitVec 16) (addr2 : BitVec 10)
    (val2 : BitVec 16) (auto1 auto2 err : Bool) : List Byte :=
  bytesOf64 (wordRegister (auroraEnc c auto1 auto2 err) status addr1 val1 addr2 val2)

/-- `FPACK.DATA` (R228): nothing for SyncFill in position 1, which is no record (R41). -/
def packData (c : Config) (sub0 sub1 : SubFrame) : Option (List Byte) :=
  if sub1 = .syncFill then none else some (bytesOf64 (subPack c sub0 ++ subPack c sub1))

/-- The encoder: the bytes of a record (R150, R220) and of a symbol (R140). A term that is no record (`Instr.wf`) has no
bytes. -/
def encode (c : Config) (i : Instr) : List Byte :=
  match i with
  | .ecr => packEcr c
  | .bcr => packBcr c
  | .noop => packNoop c
  | .sync => packSync c
  | .pulse chipId length => packPulse c chipId length
  | .cal chipId edgeMode edgeDelay edgeWidth auxMode auxDelay =>
    packCal c chipId edgeMode edgeDelay edgeWidth auxMode auxDelay
  | .rdreg chipId address => packRdReg c chipId address
  | .wrreg chipId address value => packWrReg c chipId address value
  | .wrreg6 chipId address v0 v1 v2 v3 v4 v5 => packWrReg6 c chipId address v0 v1 v2 v3 v4 v5
  | .trigger bc tag => (packTrigger c bc tag).getD []
  | .blank => packBlank c
  | .register status addr1 val1 addr2 val2 auto1 auto2 err =>
    packRegister c status addr1 val1 addr2 val2 auto1 auto2 err
  | .data sub0 sub1 => (packData c sub0 sub1).getD []
  | .sym v => [symEnc c v]

/-! ## Words of the opcode table -/

/-- The `n` 16-bit words of `w`, each as its two bytes with `b[0]` in bits 15:8, as the table's note says of a command's first
16 bits. DESIGN CHOICE, log 35: the note numbers no later bits; the first word is in the low bits and each later one above
it. -/
def tableCommandBytes : Nat → Nat → List Byte
  | 0, _ => []
  | n + 1, w => BitVec.ofNat 8 (w / 256) :: BitVec.ofNat 8 w :: tableCommandBytes n (w / 65536)

/-- An operand byte as the table numbers it: "payload is in the pre-symbol domain", so a number below 32 is a 5-bit group
and is stored as its symbol; any other number is the byte on the link. DEDUCED, log 3. -/
def tableOperandByte (c : Config) (b : Byte) : Byte :=
  if b.toNat < 32 then symEnc c (BitVec.ofNat 5 b.toNat) else b

/-- The bytes on the link of a command word of the table: the identifier or pattern as it stands, then the operand bytes;
operand bytes the table gives no bits are zero groups (`SYM[0]`), up to the longest command. DEDUCED, log 3. -/
def tableCommand (c : Config) (n w : Nat) : List Byte :=
  let operands (bs : List Byte) : List Byte := (bs.map (tableOperandByte c)) ++ List.replicate 24 (symEnc c 0)
  match tableCommandBytes n w with
  | b0 :: b1 :: rest =>
    if c.idPairs.contains (b0, b1) then b0 :: b1 :: operands rest else b0 :: operands (b1 :: rest)
  | bs => operands bs

/-- Which link a table word of `nbits` bits belongs to: 8 bits a symbol, 64 bits a frame word, else a command (the
table's `match_width_bits`; log 3). -/
def tableLink (nbits : Nat) : Link :=
  if nbits ≤ 8 then .symbol else if nbits = 64 then .data else .command

/-- The bytes on the link of a table word (R68; logs 3, 35). -/
def tableBytes (c : Config) (nbits w : Nat) : List Byte :=
  match tableLink nbits with
  | .symbol => [BitVec.ofNat 8 w]
  | .data => bytesOf64 (BitVec.ofNat 64 w)
  | .command => tableCommand c ((nbits + 15) / 16) w

/-- The instruction the decoder reads from a word of `spec/opcode_table.json`, with the default configuration. -/
def decodeTableWord (nbits w : Nat) : Option Instr :=
  match decode Config.rd53a (tableLink nbits) (tableBytes Config.rd53a nbits w) with
  | .instr i _ => some i
  | .undecodable => none

end Sys2Proof
end

