-- ==== Sys2Proof/Machine/State.lean ====
section
/-! DEFINITION. The state of the machine: the constant tables, the channel instances, the working state of the running
operation (`10_state.md` R30, R43 to R47; `20_memory.md` R60), and the caller's calls and the values returned to it. -/

namespace Sys2Proof.Machine

/-- A buffer as (offset, byte) cells, offsets strictly rising (`Memory.wf`). An offset that is not listed has no value
(log 22). -/
abbrev Memory := List Host.Cell

/-- One entry of `diag`: the offset and the value of the byte skipped (R46, R287). -/
structure Skipped where
  pos : Nat
  byte : Byte
  deriving DecidableEq, Repr

/-- A channel instance (R47). `bytes` holds the offsets below `length` and nothing beyond (R51, U2; log 16). -/
structure Chan where
  seq : List Instr
  bytes : Memory
  length : Nat
  deriving DecidableEq, Repr

/-- A channel instance right after reset (R51). -/
def Chan.empty : Chan := { seq := [], bytes := [], length := 0 }

/-- One call of the caller: one transaction of the block (R12, R297). -/
inductive Call where
  /-- `CC.ENCODE(seq)` or `FC.ENCODE(seq)` by an instance, which holds `seq` from then on (R200, R270, C7). -/
  | encode (ch : Channel) (id : Nat) (seq : List Instr)
  /-- The instance's `encode`, which "reads `seq` and writes `bytes` and `length`" (R47). -/
  | encodeHeld (ch : Channel) (id : Nat)
  /-- `CC.DECODE(IN)` or `FC.DECODE(IN)` by an instance (R201, R271). -/
  | decode (ch : Channel) (id : Nat) (buf : List Byte)
  /-- `PACK.<variant>(rec)` or `FPACK.<variant>(rec)` (R150, R220). -/
  | pack (rec : Instr)
  /-- `UNPACK.<variant>(IN, p)` (R170). -/
  | unpackCommand (v : CmdVariant) (buf : List Byte) (p : Nat)
  /-- `FUNPACK.<variant>(IN, p)` (R220). -/
  | unpackFrame (v : FrameVariant) (buf : List Byte) (p : Nat)
  /-- `SYM.ENC(v)` (R140). -/
  | symEnc (v : Group)
  /-- `SYM.DEC(b)` (R141). -/
  | symDec (b : Byte)
  /-- `UNSYMS(IN, q, k)` (R171). -/
  | unsyms (buf : List Byte) (q k : Nat)
  /-- `AURORA.ENC` (R223). -/
  | auroraEnc (auto1 auto2 err : Bool)
  /-- `AURORA.DEC` (R224). -/
  | auroraDec (a : Byte)
  /-- `AURORA.LEGAL` (R224). -/
  | auroraLegal (a : Byte)
  /-- `SUB.PACK` (R227). -/
  | subPack (s : SubFrame)
  /-- `SUB.UNPACK` (R229). -/
  | subUnpack (s : BitVec 32) (position : SubPos)
  /-- `SUB.CLASSIFY` (R250). -/
  | subClassify (s : BitVec 32) (position : SubPos)
  /-- `FMT.TAG` of a Data record (R251). -/
  | fmtTag (sub0 sub1 : SubFrame)
  /-- `FRAME.CLASSIFY(IN, p)` (R253). -/
  | frameClassify (buf : List Byte) (p : Nat)
  /-- `HIT.PIXEL(x, i)` (R230). -/
  | hitPixel (x : Hit) (i : BitVec 2)
  /-- `get_bytes` (R297). -/
  | getBytes (ch : Channel) (id : Nat)
  /-- `get_length` (R297). -/
  | getLength (ch : Channel) (id : Nat)
  /-- `clear` (R297). -/
  | clear (ch : Channel) (id : Nat)
  deriving DecidableEq, Repr

/-- A value returned to the caller (R11, R12). -/
inductive Ret where
  /-- A contract violation or an operation that does not fit: "a rejected operation with no state mutation" (R285, R81). -/
  | rejected
  /-- `(OUT[0 .. off), off)` of an encode or a pack (R150, R200, R270). -/
  | encoded (bytes : List Byte) (length : Nat)
  /-- `(out, diag)` of a channel decode (R201, R271). -/
  | decoded (out : List Instr) (diag : List Skipped)
  /-- The result of one variant parser (R11, R170). -/
  | parsed (p : Parse)
  /-- The value of one symbol, or `none` (R141). -/
  | symbol (v : Option Group)
  /-- The values of the symbols, most significant first, or `none` (R171). -/
  | symbols (vs : Option (List Group))
  | byte (b : Byte)
  | flags (auto1 auto2 err : Bool)
  | bool (b : Bool)
  | word (w : BitVec 32)
  | subFrame (s : SubFrame)
  | kind (k : SubKind)
  | tag (t : FormatTag)
  | frameClass (k : FrameClass)
  | pixel (col row : BitVec 9)
  | bytes (bs : List Byte)
  | length (n : Nat)
  | done
  deriving DecidableEq, Repr

/-- Which operation is running (R12, R313). -/
inductive Task where
  | idle
  /-- A channel encode (R200, R270) of instance `id`. -/
  | encode (ch : Channel) (id : Nat)
  /-- A channel decode (R201, R271) of instance `id`. -/
  | decode (ch : Channel) (id : Nat)
  /-- `UNSYMS` (R171). -/
  | unsyms
  deriving DecidableEq, Repr

/-- The state (R30). INVENTORY.md lists every field with its rule and its reset value. -/
structure State where
  /-- The constant tables and parameters (R31 to R35, R6). No step writes it. -/
  cfg : Config
  /-- The CommandChannel instances by number, rising; an unlisted one is `Chan.empty` (R47, R296; log 25). -/
  cmdChans : List (Nat × Chan)
  /-- The FrameChannel instances by number, in the same form. -/
  frmChans : List (Nat × Chan)
  /-- The running operation. -/
  task : Task
  /-- `IN` (R60). -/
  input : Memory
  /-- `len(IN)` (R9). -/
  inLen : Nat
  /-- The cursor (R43). -/
  pos : Nat
  /-- The records found so far (R46). -/
  out : List Instr
  /-- The bytes skipped so far (R46). -/
  diag : List Skipped
  /-- The records still to be packed (R200, R270). -/
  todo : List Instr
  /-- `OUT` (R60). -/
  outBuf : Memory
  /-- The write offset (R200, R270). -/
  off : Nat
  /-- The MODEL's own field: the caller's calls not yet begun, oldest first (log 1). -/
  calls : List Call
  /-- The MODEL's own field: the values returned, oldest first (log 1). -/
  returns : List Ret
  deriving DecidableEq, Repr

/-- Why a step faults. -/
inductive Fault where
  /-- Raised by a step of a decode whose buffer lacks the byte at the cursor although the cursor is below `len(IN)`: an
  access to an address that does not exist (R62). No state of `State.inv` reaches it. SAFE: the model stops. -/
  | inputAbsent (pos : Nat)
  deriving DecidableEq, Repr

/-- Why a step refuses. -/
inductive Refusal where
  /-- Raised by `exec` for an instruction with no meaning yet; none is left. SAFE: the model stops. -/
  | notModelled (mnemonic : String)
  /-- Raised by the meaning of a term that is no record of the spec: a Trigger with `bc = 0` (R37, U6), a DataFrame with
  SyncFill in position 1 (R41, U8). The decoder makes no such term and no call lets one in (R285). SAFE: the model stops. -/
  | noSuchRecord (i : Instr)
  deriving DecidableEq, Repr

/-- The machine right after reset (R51, R310): the tables hold their configured contents, every channel instance is
empty, and nothing runs. -/
def State.reset : State where
  cfg := Config.rd53a
  cmdChans := []
  frmChans := []
  task := .idle
  input := []
  inLen := 0
  pos := 0
  out := []
  diag := []
  todo := []
  outBuf := []
  off := 0
  calls := []
  returns := []

end Sys2Proof.Machine
end

