-- ==== Sys2Proof/Machine/Ops.lean ====
section
/-! DEFINITION. The operations every meaning and every step is made of: the buffers (`20_memory.md`), the channel
instances (`10_state.md` R47), accepting a record, writing a record, the one-byte skip, and the beginning and the end of an
operation. -/

namespace Sys2Proof.Machine

/-! ## Tables keyed by rising numbers -/

/-- The keys rise strictly. -/
def rising {α : Type} : List (Nat × α) → Bool
  | [] => true
  | [_] => true
  | (a, _) :: (b, v) :: t => decide (a < b) && rising ((b, v) :: t)

/-- The value listed at a key. -/
def findKey {α : Type} : List (Nat × α) → Nat → Option α
  | [], _ => none
  | (b, v) :: t, a => if a = b then some v else findKey t a

/-- The table with the value at a key set. -/
def putKey {α : Type} : List (Nat × α) → Nat → α → List (Nat × α)
  | [], a, x => [(a, x)]
  | (b, v) :: t, a, x =>
    if a < b then (a, x) :: (b, v) :: t
    else if a = b then (a, x) :: t
    else (b, v) :: putKey t a x

/-- The table without the key. -/
def dropKey {α : Type} : List (Nat × α) → Nat → List (Nat × α)
  | [], _ => []
  | (b, v) :: t, a => if a = b then t else (b, v) :: dropKey t a

/-! ## Buffers -/

/-- The canonical form of a buffer: offsets strictly rising. An unlisted offset reads as no value, so no entry can equal
what an unlisted offset reads as. -/
def Memory.wf (m : Memory) : Bool := rising m

/-- The byte at an offset; nothing where the buffer has none (R62, R63; log 22). -/
def memRead (m : Memory) (a : Nat) : Option Byte := findKey m a

/-- One byte written (R63). -/
def memWrite (m : Memory) (a : Nat) (b : Byte) : Memory := putKey m a b

/-- `MemWrite(addr, n, v)` (R63): the bytes written from `a` on. -/
def memWriteBytes (m : Memory) (a : Nat) : List Byte → Memory
  | [] => m
  | b :: bs => memWriteBytes (memWrite m a b) (a + 1) bs

/-- `MemRead(a, n)`: the bytes from offset `a` on, at most `n`, as far as the buffer has them (R62). -/
def bytesFrom (m : Memory) (a : Nat) : Nat → List Byte
  | 0 => []
  | n + 1 =>
    match memRead m a with
    | none => []
    | some b => b :: bytesFrom m (a + 1) n

/-- The buffer that holds the bytes from offset 0 on (R9). -/
def ofBytes (bs : List Byte) : Memory := memWriteBytes [] 0 bs

/-- The buffer holds a byte at every offset below `n` and at no other. -/
def Memory.exact (m : Memory) (n : Nat) : Bool := decide (m.map Prod.fst = List.range n)

/-! ## Channel instances -/

/-- The instances of one kind of channel. -/
def State.chans (s : State) : Channel → List (Nat × Chan)
  | .command => s.cmdChans
  | .frame => s.frmChans

/-- A channel instance; one never used is empty (R51, R310). -/
def State.chan (s : State) (ch : Channel) (id : Nat) : Chan := (findKey (s.chans ch) id).getD Chan.empty

/-- The table with one instance set; an instance equal to an unused one is not listed. -/
def putChan (t : List (Nat × Chan)) (id : Nat) (x : Chan) : List (Nat × Chan) :=
  if x = Chan.empty then dropKey t id else putKey t id x

/-- The state with one channel instance set. -/
def State.setChan (s : State) (ch : Channel) (id : Nat) (x : Chan) : State :=
  match ch with
  | .command => { s with cmdChans := putChan s.cmdChans id x }
  | .frame => { s with frmChans := putChan s.frmChans id x }

/-! ## What an instruction does -/

/-- A decode is running: `CC.DECODE`, `FC.DECODE`, or the symbol decode. -/
def Task.decoding : Task → Bool
  | .decode _ _ => true
  | .unsyms => true
  | .idle => false
  | .encode _ _ => false

/-- A parser's success: "appends the parsed Command to the output sequence and advances the position by the consumed
length" (R203). -/
def accept (i : Instr) (n : Nat) (s : State) : State :=
  { s with pos := s.pos + n, out := s.out ++ [i] }

/-- A record's bytes written at `OUT[off .. off + n)` and the offset advanced by their number (R150, R200, R270). -/
def emit (bs : List Byte) (s : State) : State :=
  { s with outBuf := memWriteBytes s.outBuf s.off bs, off := s.off + bs.length }

/-- The two directions of an instruction: accepted with its wire length in a decode, written in any other operation. -/
def perform (i : Instr) (n : Nat) (bs : List Byte) (s : State) : Host.Outcome State Fault Refusal :=
  if s.task.decoding then .next (accept i n s) else .next (emit bs s)

/-! ## The skip

"Trap entry is the skip" (R290). Nothing is saved, no mode changes, and control goes back to the top of the decode loop
at the new `pos`. "Trap return" is the retry there: "There is no return instruction and nothing to restore" (R291), so no
operation stands beside this one; the next step is the retry. -/

/-- The skip of the undecodable byte `b` at the cursor (R203, R282, R290). -/
def takeSkip (b : Byte) (s : State) : State :=
  { s with pos := s.pos + 1, diag := s.diag ++ [{ pos := s.pos, byte := b }] }

/-! ## The beginning and the end of an operation -/

/-- A value returned to the caller. -/
def answer (r : Ret) (s : State) : State := { s with returns := s.returns ++ [r] }

/-- The working state as it is when no operation runs (R30 (3), R311). -/
def endTask (s : State) : State :=
  { s with task := .idle, input := [], inLen := 0, pos := 0, out := [], diag := [], todo := [], outBuf := [], off := 0 }

/-- An encode begins: offset 0, nothing written, the records to pack in order (R200, R270). -/
def startEncode (t : Task) (seq : List Instr) (s : State) : State :=
  { endTask s with task := t, todo := seq }

/-- A decode begins: `pos = 0`, `out` and `diag` empty (R51, R201, R271, R311). -/
def startDecode (t : Task) (buf : List Byte) (s : State) : State :=
  { endTask s with task := t, input := ofBytes buf, inLen := buf.length }

/-- A channel encode ends: the instance's `bytes` and `length` are `OUT[0 .. off)` and `off` (R47, R200). -/
def finishEncode (ch : Channel) (id : Nat) (s : State) : State :=
  let x := s.chan ch id
  answer (.encoded (bytesFrom s.outBuf 0 s.off) s.off)
    (endTask (s.setChan ch id { x with bytes := s.outBuf, length := s.off }))

/-- A single pack ends: the bytes and their number (R150, R313). -/
def finishPack (s : State) : State :=
  answer (.encoded (bytesFrom s.outBuf 0 s.off) s.off) (endTask s)

/-- A channel decode ends with `pos = len(IN)`: the instance's `seq` is replaced by `out`, and `(out, diag)` is returned
(R47, R201, R313). -/
def finishDecode (ch : Channel) (id : Nat) (s : State) : State :=
  let x := s.chan ch id
  answer (.decoded s.out s.diag) (endTask (s.setChan ch id { x with seq := s.out }))

/-- The value a symbol record carries. -/
def symValue : Instr → Option Group
  | .sym v => some v
  | _ => none

/-- A symbol decode ends well: the values, the first the most significant (R171). -/
def finishUnsyms (s : State) : State :=
  answer (.symbols (some (s.out.filterMap symValue))) (endTask s)

/-- "One bad byte anywhere in the `k` fails the whole" (R171): the symbol decode ends with `none`. -/
def failUnsyms (s : State) : State := answer (.symbols none) (endTask s)

/-! ## Fetch -/

/-- The bytes from the cursor to the end of the buffer: `IN[pos ..]`. -/
def window (s : State) : List Byte := bytesFrom s.input s.pos (s.inLen - s.pos)

/-- The link the running decode reads. -/
def Task.link : Task → Link
  | .decode ch _ => ch.link
  | .encode ch _ => ch.link
  | .unsyms => .symbol
  | .idle => .symbol

/-- One probe round at the cursor (R203, R271, R141). -/
def fetch (s : State) : Decoded := decode s.cfg s.task.link (window s)

end Sys2Proof.Machine
end

