-- ==== Sys2Proof/Machine/Commands.lean ====
section
/-! DEFINITION. The meanings of the command records. Each is its UNPACK rule's success in a decode (`42_command_unpack.md`,
`43_command_channel.md` R203) and its PACK rule in any other operation (`41_command_pack.md`, R200). -/

namespace Sys2Proof.Machine

/-- ECR (R151, R172). -/
def execEcr (s : State) : Host.Outcome State Fault Refusal := perform .ecr 2 (packEcr s.cfg) s

/-- BCR (R152, R173). -/
def execBcr (s : State) : Host.Outcome State Fault Refusal := perform .bcr 2 (packBcr s.cfg) s

/-- Noop (R153, R174): a record like any other (R210). -/
def execNoop (s : State) : Host.Outcome State Fault Refusal := perform .noop 2 (packNoop s.cfg) s

/-- Sync (R154, R175): a record like any other (R210). -/
def execSync (s : State) : Host.Outcome State Fault Refusal := perform .sync 2 (packSync s.cfg) s

/-- Pulse (R155, R176). -/
def execPulse (chipId length : BitVec 4) (s : State) : Host.Outcome State Fault Refusal :=
  perform (.pulse chipId length) 4 (packPulse s.cfg chipId length) s

/-- Cal (R156, R177). -/
def execCal (chipId : BitVec 4) (edgeMode : BitVec 1) (edgeDelay : BitVec 3) (edgeWidth : BitVec 6)
    (auxMode : BitVec 1) (auxDelay : BitVec 5) (s : State) : Host.Outcome State Fault Refusal :=
  perform (.cal chipId edgeMode edgeDelay edgeWidth auxMode auxDelay) 6
    (packCal s.cfg chipId edgeMode edgeDelay edgeWidth auxMode auxDelay) s

/-- RdReg (R157, R178). -/
def execRdReg (chipId : BitVec 4) (address : BitVec 9) (s : State) : Host.Outcome State Fault Refusal :=
  perform (.rdreg chipId address) 6 (packRdReg s.cfg chipId address) s

/-- WrReg with `mode = 0` (R158, R179). -/
def execWrReg (chipId : BitVec 4) (address : BitVec 9) (value : BitVec 16) (s : State) :
    Host.Outcome State Fault Refusal :=
  perform (.wrreg chipId address value) 8 (packWrReg s.cfg chipId address value) s

/-- WrReg with `mode = 1` (R158, R179). -/
def execWrReg6 (chipId : BitVec 4) (address : BitVec 9) (v0 v1 v2 v3 v4 v5 : BitVec 16) (s : State) :
    Host.Outcome State Fault Refusal :=
  perform (.wrreg6 chipId address v0 v1 v2 v3 v4 v5) 24 (packWrReg6 s.cfg chipId address v0 v1 v2 v3 v4 v5) s

/-- Trigger (R159, R180). `bc = 0` is no record (R37). -/
def execTrigger (bc : BitVec 4) (tag : BitVec 5) (s : State) : Host.Outcome State Fault Refusal :=
  match packTrigger s.cfg bc tag with
  | none => .refused (.noSuchRecord (.trigger bc tag))
  | some bs => perform (.trigger bc tag) 2 bs s

end Sys2Proof.Machine
end

