-- ==== Sys2Proof/Machine/Frames.lean ====
section
/-! DEFINITION. The meanings of the frame records and of the symbol. Each is its FUNPACK rule's success in a decode and its
FPACK rule in any other operation (`44_frame_pack_unpack.md`, `46_frame_channel.md` R270, R271); the symbol's are `SYM.DEC` and
`SYM.ENC` (`40_symbol_codec.md`). -/

namespace Sys2Proof.Machine

/-- BlankFrame (R221, R222). -/
def execBlank (s : State) : Host.Outcome State Fault Refusal := perform .blank s.cfg.frameLen (packBlank s.cfg) s

/-- RegisterFrame (R225, R226). -/
def execRegister (status : BitVec 4) (addr1 : BitVec 10) (val1 : BitVec 16) (addr2 : BitVec 10) (val2 : BitVec 16)
    (auto1 auto2 err : Bool) (s : State) : Host.Outcome State Fault Refusal :=
  perform (.register status addr1 val1 addr2 val2 auto1 auto2 err) s.cfg.frameLen
    (packRegister s.cfg status addr1 val1 addr2 val2 auto1 auto2 err) s

/-- DataFrame (R228, R229). SyncFill in position 1 is no record (R41). -/
def execData (sub0 sub1 : SubFrame) (s : State) : Host.Outcome State Fault Refusal :=
  match packData s.cfg sub0 sub1 with
  | none => .refused (.noSuchRecord (.data sub0 sub1))
  | some bs => perform (.data sub0 sub1) s.cfg.frameLen bs s

/-- One symbol: accepted in a symbol decode (R141, R171). In any other operation its table entry is written as the next byte
of `OUT`, as a PACK writes each byte of its payload (R155 to R159); R140 names no buffer, and a lone symbol's being written
is a DESIGN CHOICE (log 24). -/
def execSym (v : BitVec 5) (s : State) : Host.Outcome State Fault Refusal :=
  perform (.sym v) 1 [symEnc s.cfg v] s

end Sys2Proof.Machine
end

