-- ==== Sys2Proof/Machine/Dispatch.lean ====
section
/-! DEFINITION. The meaning of every instruction, one arm per constructor. -/

namespace Sys2Proof.Machine

/-- The meaning of an instruction. -/
def exec (i : Instr) (s : State) : Host.Outcome State Fault Refusal :=
  match i with
  | .ecr => Sys2Proof.Machine.execEcr s
  | .bcr => Sys2Proof.Machine.execBcr s
  | .noop => Sys2Proof.Machine.execNoop s
  | .sync => Sys2Proof.Machine.execSync s
  | .pulse chipId length => Sys2Proof.Machine.execPulse chipId length s
  | .cal chipId edgeMode edgeDelay edgeWidth auxMode auxDelay => Sys2Proof.Machine.execCal chipId edgeMode edgeDelay edgeWidth auxMode auxDelay s
  | .rdreg chipId address => Sys2Proof.Machine.execRdReg chipId address s
  | .wrreg chipId address value => Sys2Proof.Machine.execWrReg chipId address value s
  | .wrreg6 chipId address v0 v1 v2 v3 v4 v5 => Sys2Proof.Machine.execWrReg6 chipId address v0 v1 v2 v3 v4 v5 s
  | .trigger bc tag => Sys2Proof.Machine.execTrigger bc tag s
  | .blank => Sys2Proof.Machine.execBlank s
  | .register status addr1 val1 addr2 val2 auto1 auto2 err => Sys2Proof.Machine.execRegister status addr1 val1 addr2 val2 auto1 auto2 err s
  | .data sub0 sub1 => Sys2Proof.Machine.execData sub0 sub1 s
  | .sym v => Sys2Proof.Machine.execSym v s

end Sys2Proof.Machine
end

