-- ==== Sys2Proof/Machine/Streams.lean ====
section
/-! DEFINITION. The channel operations as pure functions from inputs to outputs, "the normative level" (`90_conflicts.md`
C7): `CC.ENCODE`, `CC.DECODE` (`43_command_channel.md` R200, R201) and `FC.ENCODE`, `FC.DECODE` (`46_frame_channel.md` R270,
R271). -/

namespace Sys2Proof.Machine

/-- The bytes of a sequence of records, one pack after another with nothing between (R200, R270). -/
def encodeStream (c : Config) (seq : List Instr) : List Byte := seq.flatMap (encode c)

/-- The steps of a channel decode from offset `pos`, whose remaining bytes are `bs`; `fuel` bounds the number of steps
(R201, R203, R271). -/
def decodeFrom (c : Config) (ch : Channel) : Nat → Nat → List Byte → List Instr × List Skipped
  | 0, _, _ => ([], [])
  | _ + 1, _, [] => ([], [])
  | fuel + 1, pos, b :: bs =>
    match probe c ch (b :: bs) with
    | .instr i n =>
      let r := decodeFrom c ch fuel (pos + n) ((b :: bs).drop n)
      (i :: r.1, r.2)
    | .undecodable =>
      let r := decodeFrom c ch fuel (pos + 1) bs
      (r.1, { pos := pos, byte := b } :: r.2)

/-- `CC.DECODE(IN)` and `FC.DECODE(IN)`: at most `len(IN)` steps (R204, R274). -/
def decodeStream (c : Config) (ch : Channel) (buf : List Byte) : List Instr × List Skipped :=
  decodeFrom c ch buf.length 0 buf

/-- The sum of the wire lengths of a sequence (R200, R205). -/
def totalLen (c : Config) (seq : List Instr) : Nat := (seq.map (wireLen c)).sum

end Sys2Proof.Machine
end

