-- ==== Sys2Proof/Machine/Calls.lean ====
section
/-! DEFINITION. The caller's interface: which calls the block refuses (`60_exceptions.md` R285, `20_memory.md` R81), and how
each call begins or, where it is a single step, what it returns (R297, R313). -/

namespace Sys2Proof.Machine

/-- `n` is within a capacity; no capacity is unbounded (R81). -/
def fits : Option Nat → Nat → Bool
  | none, _ => true
  | some m, n => decide (n ≤ m)

/-- A sequence that an encode takes: records of the channel's kind (R285), within the capacities (R81). -/
def encodable (c : Config) (ch : Channel) (seq : List Instr) : Bool :=
  seqWf ch seq && fits c.seqMax seq.length && fits c.bufMax (totalLen c seq)

/-- A buffer that a decode takes: it and the sequence it spells are within the capacities (R81). -/
def decodable (c : Config) (ch : Channel) (buf : List Byte) : Bool :=
  fits c.bufMax buf.length && fits c.seqMax (decodeStream c ch buf).1.length

/-- The calls the block takes. Any other is a contract violation (R285) or does not fit (R81). -/
def admissible (s : State) : Call → Bool
  | .encode ch _ seq => encodable s.cfg ch seq
  | .encodeHeld ch id => encodable s.cfg ch (s.chan ch id).seq
  | .decode ch _ buf => decodable s.cfg ch buf
  | .pack i => i.wf && i.link != .symbol && fits s.cfg.bufMax (wireLen s.cfg i)
  | .unpackCommand _ buf p => decide (p ≤ buf.length) && fits s.cfg.bufMax buf.length
  | .unpackFrame _ buf p => decide (p ≤ buf.length) && fits s.cfg.bufMax buf.length
  | .symEnc _ | .symDec _ => true
  | .unsyms buf q k => decide (q + k ≤ buf.length) && fits s.cfg.bufMax buf.length
  | .fmtTag _ sub1 => sub1 != .syncFill
  | .frameClassify buf p => decide (p + s.cfg.frameLen ≤ buf.length) && fits s.cfg.bufMax buf.length
  | .auroraEnc _ _ _ | .auroraDec _ | .auroraLegal _ => true
  | .subPack _ | .subUnpack _ _ | .subClassify _ _ | .hitPixel _ _ => true
  | .getBytes _ _ | .getLength _ _ | .clear _ _ => true

/-- An optional result as a return value. -/
def retOr {α : Type} (f : α → Ret) : Option α → Ret
  | none => .rejected
  | some a => f a

/-- A single pack: the record is run with `OUT` empty, and the pack ends in the same step (R150, R220, R313). -/
def packStep (i : Instr) (s : State) : Host.Outcome State Fault Refusal :=
  match exec i (endTask s) with
  | .next t => .next (finishPack t)
  | .fault r => .fault r
  | .refused r => .refused r

/-- An admissible call begins. A channel operation or an `UNSYMS` starts its steps; every other call ends in this step
(R313). -/
def beginAdmitted (c : Call) (s : State) : Host.Outcome State Fault Refusal :=
  match c with
  | .encode ch id seq =>
    let x := s.chan ch id
    .next (startEncode (.encode ch id) seq (s.setChan ch id { x with seq := seq }))
  | .encodeHeld ch id => .next (startEncode (.encode ch id) (s.chan ch id).seq s)
  | .decode ch id buf => .next (startDecode (.decode ch id) buf s)
  | .pack i => packStep i s
  | .unpackCommand v buf p => .next (answer (.parsed (unpackCommand s.cfg v (buf.drop p))) s)
  | .unpackFrame v buf p => .next (answer (.parsed (unpackFrame s.cfg v (buf.drop p))) s)
  | .symEnc v => .next (answer (.byte (symEnc s.cfg v)) s)
  | .symDec b => .next (answer (.symbol (symDec s.cfg b)) s)
  | .unsyms buf q k => .next (startDecode .unsyms ((buf.drop q).take k) s)
  | .auroraEnc auto1 auto2 err => .next (answer (.byte (auroraEnc s.cfg auto1 auto2 err)) s)
  | .auroraDec a =>
    let f := auroraDec s.cfg a
    .next (answer (.flags f.1 f.2.1 f.2.2) s)
  | .auroraLegal a => .next (answer (.bool (auroraLegal s.cfg a)) s)
  | .subPack x => .next (answer (.word (subPack s.cfg x)) s)
  | .subUnpack w position => .next (answer (.subFrame (subUnpack s.cfg w position)) s)
  | .subClassify w position => .next (answer (.kind (subClassify s.cfg w position)) s)
  | .fmtTag sub0 sub1 => .next (answer (retOr Ret.tag (fmtTag sub0 sub1)) s)
  | .frameClassify buf p => .next (answer (retOr Ret.frameClass (frameClassify s.cfg (buf.drop p))) s)
  | .hitPixel x i =>
    let q := hitPixel x i
    .next (answer (.pixel q.1 q.2) s)
  | .getBytes ch id =>
    let x := s.chan ch id
    .next (answer (.bytes (bytesFrom x.bytes 0 x.length)) s)
  | .getLength ch id => .next (answer (.length (s.chan ch id).length) s)
  | .clear ch id => .next (answer .done (s.setChan ch id Chan.empty))

/-- A call begins, or is refused with nothing else changed: "a rejected operation with no state mutation" (R285, R81). -/
def beginCall (c : Call) (s : State) : Host.Outcome State Fault Refusal :=
  if admissible s c then beginAdmitted c s else .next (answer .rejected s)

end Sys2Proof.Machine
end

