-- ==== Sys2Proof/Machine/Rounds.lean ====
section
/-! DEFINITION. One round of a running decode. -/

namespace Sys2Proof.Machine

/-- One step of a channel decode: `CCSTEP`, `FCSTEP` (R203, R271), for a cursor below `len(IN)`. The record the probe round
finds is run; when no parser succeeds the byte at the cursor is skipped. -/
def decodeStep (s : State) : Host.Outcome State Fault Refusal :=
  match fetch s with
  | .instr i _ => exec i s
  | .undecodable =>
    match memRead s.input s.pos with
    | none => .fault (.inputAbsent s.pos)
    | some b => .next (takeSkip b s)

/-- One step of a symbol decode, for a cursor below the end: the symbol is run, and a byte that is none ends the whole
with `none` (R171). -/
def symbolStep (s : State) : Host.Outcome State Fault Refusal :=
  match fetch s with
  | .instr i _ => exec i s
  | .undecodable => .next (failUnsyms s)

end Sys2Proof.Machine
end

