-- ==== Sys2Proof/Machine/Step.lean ====
section
/-! DEFINITION. One step of the machine. -/

namespace Sys2Proof.Machine

/-- One step. An idle machine begins the next call, or waits when there is none; an encode runs the next record of its
sequence; a decode makes one probe round; each ends when nothing is left (R12, R200, R203, R271, R313). -/
def step (s : State) : Host.Outcome State Fault Refusal :=
  match s.task with
  | .idle =>
    match s.calls with
    | [] => .next s
    | c :: rest => beginCall c { s with calls := rest }
  | .encode ch id =>
    match s.todo with
    | [] => .next (finishEncode ch id s)
    | i :: rest => exec i { s with todo := rest }
  | .decode ch id => if s.pos < s.inLen then decodeStep s else .next (finishDecode ch id s)
  | .unsyms => if s.pos < s.inLen then symbolStep s else .next (finishUnsyms s)

/-- The decode that reads a link. -/
def fetchTask : Link → Task
  | .command => .decode .command 0
  | .data => .decode .frame 0
  | .symbol => .unsyms

/-- `s` with a word of the opcode table as the buffer of a decode that has just begun, so that the next step probes and runs
it (log 2, log 3). -/
def State.withFetchWord (s : State) (nbits w : Nat) : State :=
  let bs := tableBytes s.cfg nbits w
  { s with task := fetchTask (tableLink nbits), input := ofBytes bs, inLen := bs.length, pos := 0 }

end Sys2Proof.Machine
end

