-- ==== Sys2Proof/Safety.lean ====
section
/-! DEFINITION. What a good state is, and what a safe run is: "no operation has a fault outcome and none is stuck"
(`60_exceptions.md` R293). -/

namespace Sys2Proof.Machine

/-- A channel instance holds records of its kind, and its buffer holds exactly the offsets below its length (R47, R51). -/
def chanWf (ch : Channel) (x : Chan) : Bool := seqWf ch x.seq && x.bytes.exact x.length

/-- The table of instances is in canonical form, and every instance in it is well formed. -/
def chansWf (ch : Channel) (t : List (Nat × Chan)) : Bool :=
  rising t && t.all fun e => e.2 != Chan.empty && chanWf ch e.2

/-- `IN` holds exactly the offsets below `len(IN)`, and `0 <= pos <= len(IN)` (R43, R61). -/
def inputWf (s : State) : Bool := s.input.exact s.inLen && decide (s.pos ≤ s.inLen)

/-- `OUT` holds exactly the offsets below the write offset: no gap and no padding (R63). -/
def outputWf (s : State) : Bool := s.outBuf.exact s.off

/-- Every byte the cursor has passed is part of one record of `out` or was skipped once (R205, R274). -/
def accounted (s : State) : Bool := decide (s.pos = totalLen s.cfg s.out + s.diag.length)

/-- What the running operation's working state holds; with none running there is no working state (R30 (3)). -/
def taskWf (s : State) : Bool :=
  match s.task with
  | .idle => decide (endTask s = s)
  | .encode ch _ => seqWf ch s.todo
  | .decode ch _ => seqWf ch s.out && accounted s
  | .unsyms => (s.out.all fun i => i.link == .symbol) && accounted s && s.diag.isEmpty

/-- The invariant of the machine. Every state a run reaches has it; a state it rules out is one no run reaches. -/
def State.inv (s : State) : Bool :=
  s.cfg.wf && chansWf .command s.cmdChans && chansWf .frame s.frmChans && inputWf s && outputWf s && taskWf s

/-- The outcome is a next state. -/
def goesOn : Host.Outcome State Fault Refusal → Bool
  | .next _ => true
  | .fault _ => false
  | .refused _ => false

/-- A run of `k` steps that neither faults nor refuses (R293). -/
def safeRun (k : Nat) (s : State) : Bool := goesOn (Host.Core.run Sys2Proof.core k s)

end Sys2Proof.Machine
end

