-- ==== Sys2Proof/Certificates/Slice0/Obligations.lean ====
section
/-! DEFINITION. The statements for the provers. Rule numbers are those of `spec/`; each title and its text stand in
OBLIGATIONS.json. -/

open Sys2Proof Sys2Proof.Machine

/-! ## Reset -/

/-- The machine right after reset has the invariant. `State.inv` is the model's own predicate; that no working state
exists while nothing runs is its DESIGN CHOICE (log 15). -/
def Obligations.ResetHasInvariant : Prop := State.reset.inv = true

/-- After reset every channel instance is empty, nothing runs and nothing is waiting; the identifiers and the blank
code are the source's (R6, R51, R310). Empty instances are the spec's decision D12; the empty working state is the
model's DESIGN CHOICE (log 15). -/
def Obligations.ResetLeavesEveryChannelEmpty : Prop :=
  (∀ ch id, (State.reset.chan ch id).seq = [] ∧ (State.reset.chan ch id).length = 0) ∧
    State.reset.task = .idle ∧ State.reset.pos = 0 ∧ State.reset.out = [] ∧ State.reset.diag = [] ∧
    State.reset.cfg.idEcr = 0x5A5A ∧ State.reset.cfg.idBcr = 0x5959 ∧ State.reset.cfg.idNoop = 0x6969 ∧
    State.reset.cfg.idSync = 0x417E ∧ State.reset.cfg.idPulse = 0x5C5C ∧ State.reset.cfg.idCal = 0x6363 ∧
    State.reset.cfg.idRdReg = 0x6565 ∧ State.reset.cfg.idWrReg = 0x6666 ∧ State.reset.cfg.blankCode = 0x1E

/-! ## Writing a record: completion and result -/

/-- ECR, BCR and Noop write their identifier low byte first, Sync high byte first (R151 to R154). -/
def Obligations.IdentifierRecordsWriteTwoBytes : Prop :=
  ∀ s : State, s.task.decoding = false →
    exec .ecr s = .next { s with
      outBuf := memWriteBytes s.outBuf s.off [s.cfg.idEcr.extractLsb' 0 8, s.cfg.idEcr.extractLsb' 8 8], off := s.off + 2 } ∧
    exec .bcr s = .next { s with
      outBuf := memWriteBytes s.outBuf s.off [s.cfg.idBcr.extractLsb' 0 8, s.cfg.idBcr.extractLsb' 8 8], off := s.off + 2 } ∧
    exec .noop s = .next { s with
      outBuf := memWriteBytes s.outBuf s.off [s.cfg.idNoop.extractLsb' 0 8, s.cfg.idNoop.extractLsb' 8 8], off := s.off + 2 } ∧
    exec .sync s = .next { s with
      outBuf := memWriteBytes s.outBuf s.off [s.cfg.idSync.extractLsb' 8 8, s.cfg.idSync.extractLsb' 0 8], off := s.off + 2 }

/-- Pulse writes its identifier, then the symbols of `chipId ‖ 0` and `length ‖ 0` (R155). The places of the fields
are the spec's decision D14 (log 11). -/
def Obligations.PulseWritesFourBytes : Prop :=
  ∀ (s : State) (chipId length : BitVec 4), s.task.decoding = false →
    exec (.pulse chipId length) s = .next { s with
      outBuf := memWriteBytes s.outBuf s.off
        [s.cfg.idPulse.extractLsb' 0 8, s.cfg.idPulse.extractLsb' 8 8,
         symEnc s.cfg (chipId ++ 0#1), symEnc s.cfg (length ++ 0#1)],
      off := s.off + 4 }

/-- Cal writes its identifier and four symbols (R156). The places of the fields are the spec's decision D14 (log 11).
-/
def Obligations.CalWritesSixBytes : Prop :=
  ∀ (s : State) (chipId : BitVec 4) (edgeMode : BitVec 1) (edgeDelay : BitVec 3) (edgeWidth : BitVec 6)
    (auxMode : BitVec 1) (auxDelay : BitVec 5), s.task.decoding = false →
    exec (.cal chipId edgeMode edgeDelay edgeWidth auxMode auxDelay) s = .next { s with
      outBuf := memWriteBytes s.outBuf s.off
        [s.cfg.idCal.extractLsb' 0 8, s.cfg.idCal.extractLsb' 8 8,
         symEnc s.cfg (chipId ++ edgeMode), symEnc s.cfg (edgeDelay ++ edgeWidth.extractLsb' 4 2),
         symEnc s.cfg (edgeWidth.extractLsb' 0 4 ++ auxMode), symEnc s.cfg auxDelay],
      off := s.off + 6 }

/-- RdReg writes its identifier and four symbols, the last one of the zero group (R157). The places of the fields are
the spec's decision D14 (log 11). -/
def Obligations.RdRegWritesSixBytes : Prop :=
  ∀ (s : State) (chipId : BitVec 4) (address : BitVec 9), s.task.decoding = false →
    exec (.rdreg chipId address) s = .next { s with
      outBuf := memWriteBytes s.outBuf s.off
        [s.cfg.idRdReg.extractLsb' 0 8, s.cfg.idRdReg.extractLsb' 8 8,
         symEnc s.cfg (chipId ++ 0#1), symEnc s.cfg (address.extractLsb' 4 5),
         symEnc s.cfg (address.extractLsb' 0 4 ++ 0#1), symEnc s.cfg 0],
      off := s.off + 6 }

/-- WrReg with `mode = 0` writes its identifier and six symbols (R158, R97). The places of the fields are the spec's
decision D14 (log 11). -/
def Obligations.WrRegWritesEightBytes : Prop :=
  ∀ (s : State) (chipId : BitVec 4) (address : BitVec 9) (value : BitVec 16), s.task.decoding = false →
    exec (.wrreg chipId address value) s = .next { s with
      outBuf := memWriteBytes s.outBuf s.off
        [s.cfg.idWrReg.extractLsb' 0 8, s.cfg.idWrReg.extractLsb' 8 8,
         symEnc s.cfg (chipId ++ 0#1), symEnc s.cfg (address.extractLsb' 4 5),
         symEnc s.cfg (address.extractLsb' 0 4 ++ value.extractLsb' 15 1), symEnc s.cfg (value.extractLsb' 10 5),
         symEnc s.cfg (value.extractLsb' 5 5), symEnc s.cfg (value.extractLsb' 0 5)],
      off := s.off + 8 }

/-- WrReg with `mode = 1` writes its identifier and the 22 groups of its payload, the most significant first, each as
its symbol (R158, R98, R93). The places of the fields are the spec's decision D14 (log 11). -/
def Obligations.WrReg6WritesTwentyFourBytes : Prop :=
  ∀ (s : State) (chipId : BitVec 4) (address : BitVec 9) (v0 v1 v2 v3 v4 v5 : BitVec 16), s.task.decoding = false →
    ∃ bytes : List Byte, bytes.length = 24 ∧
      bytes[0]? = some (s.cfg.idWrReg.extractLsb' 0 8) ∧ bytes[1]? = some (s.cfg.idWrReg.extractLsb' 8 8) ∧
      (∀ i, i < 22 → bytes[2 + i]? = some (symEnc s.cfg
        ((chipId ++ 1#1 ++ address ++ v0 ++ v1 ++ v2 ++ v3 ++ v4 ++ v5 : BitVec 110).extractLsb' (5 * (22 - i) - 5) 5))) ∧
      exec (.wrreg6 chipId address v0 v1 v2 v3 v4 v5) s = .next { s with
        outBuf := memWriteBytes s.outBuf s.off bytes, off := s.off + 24 }

/-- Trigger writes the pattern of its bitmap and the symbol of its tag (R159). -/
def Obligations.TriggerWritesPatternAndTag : Prop :=
  ∀ (s : State) (bc : BitVec 4) (tag : BitVec 5), bc ≠ 0 → s.task.decoding = false →
    ∃ pattern : Byte, s.cfg.trig.toList[bc.toNat - 1]? = some pattern ∧
      exec (.trigger bc tag) s = .next { s with
        outBuf := memWriteBytes s.outBuf s.off [pattern, symEnc s.cfg tag], off := s.off + 2 }

/-- A term that is no record of the spec is refused in every state: a Trigger with `bc = 0` (R37), SyncFill in position 1
(R41). The model's own stop (log 19). -/
def Obligations.NonRecordsAreRefused : Prop :=
  (∀ (s : State) (tag : BitVec 5), exec (.trigger 0 tag) s = .refused (.noSuchRecord (.trigger 0 tag))) ∧
    ∀ (s : State) (sub0 : SubFrame), exec (.data sub0 .syncFill) s = .refused (.noSuchRecord (.data sub0 .syncFill))

/-- BlankFrame writes the blank code and seven zero bytes (R221). -/
def Obligations.BlankWritesEightBytes : Prop :=
  ∀ s : State, s.task.decoding = false →
    exec .blank s = .next { s with
      outBuf := memWriteBytes s.outBuf s.off [s.cfg.blankCode, 0, 0, 0, 0, 0, 0, 0], off := s.off + 8 }

/-- RegisterFrame writes its aurora code and its fields, byte by byte as R104 lists them (R225). The order of the
fields is the spec's decision D15 (log 12), the fields written with `err = 1` its decision D22 (log 18). -/
def Obligations.RegisterWritesEightBytes : Prop :=
  ∀ (s : State) (status : BitVec 4) (addr1 : BitVec 10) (val1 : BitVec 16) (addr2 : BitVec 10) (val2 : BitVec 16)
    (auto1 auto2 err : Bool), s.task.decoding = false →
    exec (.register status addr1 val1 addr2 val2 auto1 auto2 err) s = .next { s with
      outBuf := memWriteBytes s.outBuf s.off
        [(match auto1, auto2, err with
          | _, _, true => s.cfg.aurErr
          | true, true, false => s.cfg.aurAA
          | true, false, false => s.cfg.aurAE
          | false, true, false => s.cfg.aurEA
          | false, false, false => s.cfg.aurEE),
         status ++ addr1.extractLsb' 6 4, addr1.extractLsb' 0 6 ++ val1.extractLsb' 14 2, val1.extractLsb' 6 8,
         val1.extractLsb' 0 6 ++ addr2.extractLsb' 8 2, addr2.extractLsb' 0 8, val2.extractLsb' 8 8,
         val2.extractLsb' 0 8],
      off := s.off + 8 }

/-- DataFrame writes the words of its two sub-frames, each most significant byte first (R228, R227). The layouts of
the sub-frames are the spec's decision D15 (log 12), the sync word its decision D18 (log 13). -/
def Obligations.DataWritesTwoSubFrames : Prop :=
  ∀ (s : State) (sub0 sub1 : SubFrame), sub1 ≠ .syncFill → s.task.decoding = false →
    let word : SubFrame → BitVec 32 := fun sub =>
      match sub with
      | .header h => s.cfg.hdrId ++ h.trigId ++ h.trigTag ++ h.bcid
      | .hit x => x.ccol ++ x.crow ++ x.region ++ x.tot0 ++ x.tot1 ++ x.tot2 ++ x.tot3
      | .syncFill => s.cfg.blankCode ++ 0#24
    exec (.data sub0 sub1) s = .next { s with
      outBuf := memWriteBytes s.outBuf s.off
        [(word sub0).extractLsb' 24 8, (word sub0).extractLsb' 16 8, (word sub0).extractLsb' 8 8,
         (word sub0).extractLsb' 0 8, (word sub1).extractLsb' 24 8, (word sub1).extractLsb' 16 8,
         (word sub1).extractLsb' 8 8, (word sub1).extractLsb' 0 8],
      off := s.off + 8 }

/-- A symbol writes the table entry of its value (R140). That a lone symbol is written at `OUT[off]`, and `off` advanced,
is the model's DESIGN CHOICE (logs 24, 29): R140 names no buffer. -/
def Obligations.SymbolWritesItsTableEntry : Prop :=
  ∀ (s : State) (v : BitVec 5), s.task.decoding = false →
    ∃ b : Byte, s.cfg.sym.toList[v.toNat]? = some b ∧
      exec (.sym v) s = .next { s with outBuf := memWriteBytes s.outBuf s.off [b], off := s.off + 1 }

/-! ## Accepting a record: completion and result -/

/-- In a decode every record is appended to `out` and the cursor advances by the record's wire length (R203, R119);
nothing else changes. A frame's length is `FRAME_LEN` (R6, log 26). One step per record is the model's (log 29). -/
def Obligations.DecodedRecordsAdvanceTheCursor : Prop :=
  ∀ (s : State) (i : Instr), i.wf = true → s.task.decoding = true →
    let n : Nat :=
      match i with
      | .ecr => 2
      | .bcr => 2
      | .noop => 2
      | .sync => 2
      | .pulse _ _ => 4
      | .cal _ _ _ _ _ _ => 6
      | .rdreg _ _ => 6
      | .wrreg _ _ _ => 8
      | .wrreg6 _ _ _ _ _ _ _ _ => 24
      | .trigger _ _ => 2
      | .blank => s.cfg.frameLen
      | .register _ _ _ _ _ _ _ _ => s.cfg.frameLen
      | .data _ _ => s.cfg.frameLen
      | .sym _ => 1
    exec i s = .next { s with pos := s.pos + n, out := s.out ++ [i] }

/-! ## Frames -/

/-- What writing a record leaves alone: every offset of `OUT` outside the bytes written, and every other field (R63,
R150, R220). The model's step shows the frame the rules imply. -/
def Obligations.WritingChangesOnlyItsBytes : Prop :=
  ∀ (s t : State) (i : Instr), s.task.decoding = false → exec i s = .next t →
    (∀ a, a < s.off ∨ s.off + (encode s.cfg i).length ≤ a → memRead t.outBuf a = memRead s.outBuf a) ∧
    (∀ k, k < (encode s.cfg i).length → memRead t.outBuf (s.off + k) = (encode s.cfg i)[k]?) ∧
    t = { s with outBuf := t.outBuf, off := s.off + (encode s.cfg i).length }

/-- What accepting a record leaves alone: every byte of `IN` and of `OUT`, and every field but `pos` and `out` (R60,
R73). The model's step shows the frame the rules imply. -/
def Obligations.AcceptingChangesNoMemory : Prop :=
  ∀ (s t : State) (i : Instr), s.task.decoding = true → exec i s = .next t →
    (∀ a, memRead t.input a = memRead s.input a) ∧ (∀ a, memRead t.outBuf a = memRead s.outBuf a) ∧
    t = { s with pos := t.pos, out := t.out }

/-! ## Steps -/

/-- A step of a decode runs the instruction that stands at the cursor, and a step of an encode the next record of its
sequence, taking it off the list; a pack call runs its record with `OUT` empty and ends in the same step. What a step is,
is the model's (logs 1, 29). -/
def Obligations.StepRunsTheDecodedInstruction : Prop :=
  (∀ (s : State) (ch : Channel) (id : Nat) (i : Instr) (n : Nat), s.task = .decode ch id → s.pos < s.inLen →
      decode s.cfg ch.link (window s) = .instr i n → step s = exec i s) ∧
    (∀ (s : State) (i : Instr) (n : Nat), s.task = .unsyms → s.pos < s.inLen →
      decode s.cfg .symbol (window s) = .instr i n → step s = exec i s) ∧
    (∀ (s : State) (ch : Channel) (id : Nat) (i : Instr) (rest : List Instr), s.task = .encode ch id →
      s.todo = i :: rest → step s = exec i { s with todo := rest }) ∧
    ∀ (s : State) (i : Instr) (rest : List Call), s.task = .idle → s.calls = .pack i :: rest →
      admissible s (.pack i) = true →
      ∃ t, exec i (endTask { s with calls := rest }) = .next t ∧ step s = .next (finishPack t)

/-- One step of a command decode is `CCSTEP`: the first parser of the order that succeeds is taken, and when none does
the byte at the cursor is skipped (R203). The content of a `diag` entry is the spec's decision D11 (log 14), the order
its decision D5 (log 8). -/
def Obligations.CommandStepProbesInOrder : Prop :=
  ∀ (s : State) (id : Nat), s.inv = true → s.task = .decode .command id → s.pos < s.inLen →
    s.cfg.cmdProbeOrder = [.cal, .ecr, .bcr, .pulse, .rdreg, .wrreg, .noop, .sync, .trigger] →
    (∀ (before after : List CmdVariant) (v : CmdVariant) (rec : Instr) (n : Nat),
        s.cfg.cmdProbeOrder = before ++ v :: after →
        (∀ u ∈ before, ∃ e, unpackCommand s.cfg u (window s) = .fail e) →
        unpackCommand s.cfg v (window s) = .got rec n →
        step s = .next { s with pos := s.pos + n, out := s.out ++ [rec] }) ∧
    ((∀ v ∈ s.cfg.cmdProbeOrder, ∃ e, unpackCommand s.cfg v (window s) = .fail e) →
      ∃ b, memRead s.input s.pos = some b ∧
        step s = .next { s with pos := s.pos + 1, diag := s.diag ++ [{ pos := s.pos, byte := b }] })

/-- The same of the frame channel's `FCSTEP` (R271). The content of a `diag` entry is the spec's decision D11 (log
14). -/
def Obligations.FrameStepProbesInOrder : Prop :=
  ∀ (s : State) (id : Nat), s.inv = true → s.task = .decode .frame id → s.pos < s.inLen →
    s.cfg.frameProbeOrder = [.register, .blank, .data] →
    (∀ (before after : List FrameVariant) (v : FrameVariant) (rec : Instr) (n : Nat),
        s.cfg.frameProbeOrder = before ++ v :: after →
        (∀ u ∈ before, ∃ e, unpackFrame s.cfg u (window s) = .fail e) →
        unpackFrame s.cfg v (window s) = .got rec n →
        step s = .next { s with pos := s.pos + 8, out := s.out ++ [rec] }) ∧
    ((∀ v ∈ s.cfg.frameProbeOrder, ∃ e, unpackFrame s.cfg v (window s) = .fail e) →
      ∃ b, memRead s.input s.pos = some b ∧
        step s = .next { s with pos := s.pos + 1, diag := s.diag ++ [{ pos := s.pos, byte := b }] })

/-- How a step moves the cursor of a running channel decode: forward by the wire length of the one record it appends
to `out`, or by one with one entry more in `diag`; the buffer and the operation stay (R44, R204, R73). The spec marks
R204 [derived]; the content of a `diag` entry is its decision D11 (log 14). -/
def Obligations.DecodeStepMovesTheCursorForward : Prop :=
  ∀ (s t : State) (ch : Channel) (id : Nat), s.inv = true → s.task = .decode ch id → s.pos < s.inLen →
    step s = .next t →
    s.pos < t.pos ∧ t.pos ≤ s.inLen ∧ t.inLen = s.inLen ∧ t.input = s.input ∧ t.task = s.task ∧
    ((∃ i, i.link = ch.link ∧ t.out = s.out ++ [i] ∧ t.diag = s.diag ∧ t.pos = s.pos + wireLen s.cfg i) ∨
      ∃ b, memRead s.input s.pos = some b ∧ t.out = s.out ∧ t.diag = s.diag ++ [{ pos := s.pos, byte := b }] ∧
        t.pos = s.pos + 1)

/-! ## The parsers -/

/-- ECR, BCR, Noop and Sync parse exactly their two identifier bytes (R172 to R175). -/
def Obligations.IdentifierRecordsParseTheirBytes : Prop :=
  ∀ (c : Config) (bs : List Byte),
    unpackCommand c .ecr bs =
      (if bs[0]? = some (c.idEcr.extractLsb' 0 8) ∧ bs[1]? = some (c.idEcr.extractLsb' 8 8) then .got .ecr 2
       else .fail .noMatch) ∧
    unpackCommand c .bcr bs =
      (if bs[0]? = some (c.idBcr.extractLsb' 0 8) ∧ bs[1]? = some (c.idBcr.extractLsb' 8 8) then .got .bcr 2
       else .fail .noMatch) ∧
    unpackCommand c .noop bs =
      (if bs[0]? = some (c.idNoop.extractLsb' 0 8) ∧ bs[1]? = some (c.idNoop.extractLsb' 8 8) then .got .noop 2
       else .fail .noMatch) ∧
    unpackCommand c .sync bs =
      (if bs[0]? = some (c.idSync.extractLsb' 8 8) ∧ bs[1]? = some (c.idSync.extractLsb' 0 8) then .got .sync 2
       else .fail .noMatch)

/-- `UNPACK.PULSE` (R176): the three checks in order, and the fields of the payload; pad bits are not examined. The
places of the fields are the spec's decision D14 (log 11). -/
def Obligations.PulseParserFollowsItsRule : Prop :=
  ∀ c : Config,
    (∀ bs : List Byte, ¬ (bs[0]? = some (c.idPulse.extractLsb' 0 8) ∧ bs[1]? = some (c.idPulse.extractLsb' 8 8)) →
      unpackCommand c .pulse bs = .fail .noMatch) ∧
    (∀ rest : List Byte, rest.length < 2 →
      unpackCommand c .pulse (c.idPulse.extractLsb' 0 8 :: c.idPulse.extractLsb' 8 8 :: rest) = .fail .truncated) ∧
    (∀ rest : List Byte, 2 ≤ rest.length → unsyms c 2 rest = none →
      unpackCommand c .pulse (c.idPulse.extractLsb' 0 8 :: c.idPulse.extractLsb' 8 8 :: rest) = .fail .badSymbol) ∧
    ∀ (rest : List Byte) (p : BitVec 10), 2 ≤ rest.length → unsyms c 2 rest = some (cutGroups 2 p) →
      unpackCommand c .pulse (c.idPulse.extractLsb' 0 8 :: c.idPulse.extractLsb' 8 8 :: rest) =
        .got (.pulse (p.extractLsb' 6 4) (p.extractLsb' 1 4)) 4

/-- `UNPACK.CAL` (R177). The places of the fields are the spec's decision D14 (log 11). -/
def Obligations.CalParserFollowsItsRule : Prop :=
  ∀ c : Config,
    (∀ bs : List Byte, ¬ (bs[0]? = some (c.idCal.extractLsb' 0 8) ∧ bs[1]? = some (c.idCal.extractLsb' 8 8)) →
      unpackCommand c .cal bs = .fail .noMatch) ∧
    (∀ rest : List Byte, rest.length < 4 →
      unpackCommand c .cal (c.idCal.extractLsb' 0 8 :: c.idCal.extractLsb' 8 8 :: rest) = .fail .truncated) ∧
    (∀ rest : List Byte, 4 ≤ rest.length → unsyms c 4 rest = none →
      unpackCommand c .cal (c.idCal.extractLsb' 0 8 :: c.idCal.extractLsb' 8 8 :: rest) = .fail .badSymbol) ∧
    ∀ (rest : List Byte) (p : BitVec 20), 4 ≤ rest.length → unsyms c 4 rest = some (cutGroups 4 p) →
      unpackCommand c .cal (c.idCal.extractLsb' 0 8 :: c.idCal.extractLsb' 8 8 :: rest) =
        .got (.cal (p.extractLsb' 16 4) (p.extractLsb' 15 1) (p.extractLsb' 12 3) (p.extractLsb' 6 6)
          (p.extractLsb' 5 1) (p.extractLsb' 0 5)) 6

/-- `UNPACK.RDREG` (R178): pad bits are not examined. The places of the fields are the spec's decision D14 (log 11).
-/
def Obligations.RdRegParserFollowsItsRule : Prop :=
  ∀ c : Config,
    (∀ bs : List Byte, ¬ (bs[0]? = some (c.idRdReg.extractLsb' 0 8) ∧ bs[1]? = some (c.idRdReg.extractLsb' 8 8)) →
      unpackCommand c .rdreg bs = .fail .noMatch) ∧
    (∀ rest : List Byte, rest.length < 4 →
      unpackCommand c .rdreg (c.idRdReg.extractLsb' 0 8 :: c.idRdReg.extractLsb' 8 8 :: rest) = .fail .truncated) ∧
    (∀ rest : List Byte, 4 ≤ rest.length → unsyms c 4 rest = none →
      unpackCommand c .rdreg (c.idRdReg.extractLsb' 0 8 :: c.idRdReg.extractLsb' 8 8 :: rest) = .fail .badSymbol) ∧
    ∀ (rest : List Byte) (p : BitVec 20), 4 ≤ rest.length → unsyms c 4 rest = some (cutGroups 4 p) →
      unpackCommand c .rdreg (c.idRdReg.extractLsb' 0 8 :: c.idRdReg.extractLsb' 8 8 :: rest) =
        .got (.rdreg (p.extractLsb' 16 4) (p.extractLsb' 6 9)) 6

/-- `UNPACK.WRREG` (R179): the mode bit of the first symbol picks the length, the long form checks for 24 bytes before
it reads on, and one bad symbol fails the whole. The places of the fields are the spec's decision D14 (log 11). -/
def Obligations.WrRegParserFollowsItsRule : Prop :=
  ∀ c : Config,
    (∀ bs : List Byte, ¬ (bs[0]? = some (c.idWrReg.extractLsb' 0 8) ∧ bs[1]? = some (c.idWrReg.extractLsb' 8 8)) →
      unpackCommand c .wrreg bs = .fail .noMatch) ∧
    (∀ rest : List Byte, rest.length < 6 →
      unpackCommand c .wrreg (c.idWrReg.extractLsb' 0 8 :: c.idWrReg.extractLsb' 8 8 :: rest) = .fail .truncated) ∧
    (∀ (b2 : Byte) (rest : List Byte), 5 ≤ rest.length → symDec c b2 = none →
      unpackCommand c .wrreg (c.idWrReg.extractLsb' 0 8 :: c.idWrReg.extractLsb' 8 8 :: b2 :: rest) =
        .fail .badSymbol) ∧
    (∀ (b2 : Byte) (g0 : Group) (rest : List Byte), 5 ≤ rest.length → rest.length < 21 → symDec c b2 = some g0 →
      g0.getLsbD 0 = true →
      unpackCommand c .wrreg (c.idWrReg.extractLsb' 0 8 :: c.idWrReg.extractLsb' 8 8 :: b2 :: rest) =
        .fail .truncated) ∧
    (∀ (b2 : Byte) (g0 : Group) (rest : List Byte), 5 ≤ rest.length → symDec c b2 = some g0 → g0.getLsbD 0 = false →
      unsyms c 6 (b2 :: rest) = none →
      unpackCommand c .wrreg (c.idWrReg.extractLsb' 0 8 :: c.idWrReg.extractLsb' 8 8 :: b2 :: rest) =
        .fail .badSymbol) ∧
    (∀ (b2 : Byte) (g0 : Group) (rest : List Byte), 21 ≤ rest.length → symDec c b2 = some g0 → g0.getLsbD 0 = true →
      unsyms c 22 (b2 :: rest) = none →
      unpackCommand c .wrreg (c.idWrReg.extractLsb' 0 8 :: c.idWrReg.extractLsb' 8 8 :: b2 :: rest) =
        .fail .badSymbol) ∧
    (∀ (rest : List Byte) (p : BitVec 30), 6 ≤ rest.length → p.getLsbD 25 = false →
      unsyms c 6 rest = some (cutGroups 6 p) →
      unpackCommand c .wrreg (c.idWrReg.extractLsb' 0 8 :: c.idWrReg.extractLsb' 8 8 :: rest) =
        .got (.wrreg (p.extractLsb' 26 4) (p.extractLsb' 16 9) (p.extractLsb' 0 16)) 8) ∧
    ∀ (rest : List Byte) (p : BitVec 110), 22 ≤ rest.length → p.getLsbD 105 = true →
      unsyms c 22 rest = some (cutGroups 22 p) →
      unpackCommand c .wrreg (c.idWrReg.extractLsb' 0 8 :: c.idWrReg.extractLsb' 8 8 :: rest) =
        .got (.wrreg6 (p.extractLsb' 106 4) (p.extractLsb' 96 9) (p.extractLsb' 80 16) (p.extractLsb' 64 16)
          (p.extractLsb' 48 16) (p.extractLsb' 32 16) (p.extractLsb' 16 16) (p.extractLsb' 0 16)) 24

/-- `UNPACK.TRIGGER` (R180): a pattern of the table, then a symbol; the bitmap found is never 0. -/
def Obligations.TriggerParserFollowsItsRule : Prop :=
  ∀ c : Config, c.trigWf = true →
    unpackCommand c .trigger [] = .fail .noMatch ∧
    (∀ (b0 : Byte) (rest : List Byte), b0 ∉ c.trig.toList →
      unpackCommand c .trigger (b0 :: rest) = .fail .noMatch) ∧
    ∀ (b0 : Byte) (bc : BitVec 4), bc ≠ 0 → c.trig.toList[bc.toNat - 1]? = some b0 →
      unpackCommand c .trigger [b0] = .fail .truncated ∧
      ∀ (b1 : Byte) (rest : List Byte),
        unpackCommand c .trigger (b0 :: b1 :: rest) =
          match symDec c b1 with
          | none => .fail .badSymbol
          | some tag => .got (.trigger bc tag) 2

/-- `FUNPACK.BLANK` (R222): the blank code and seven zero bytes, and nothing else, is a BlankFrame. -/
def Obligations.BlankParserFollowsItsRule : Prop :=
  ∀ (c : Config) (bs : List Byte), c.frameLen = 8 →
    unpackFrame c .blank bs =
      if bs.length < 8 then .fail .truncated
      else if bs[0]? = some c.blankCode ∧ ∀ k, 1 ≤ k → k < 8 → bs[k]? = some 0 then .got .blank 8
      else .fail .noMatch

/-- `FUNPACK.REGISTER` (R226): an illegal aurora byte is refused; a legal one gives the flags and the fields, whatever
the other seven bytes are. The order of the fields is the spec's decision D15 (log 12). -/
def Obligations.RegisterParserFollowsItsRule : Prop :=
  ∀ c : Config, c.auroraWf = true → c.frameLen = 8 →
    (∀ bs : List Byte, bs.length < 8 → unpackFrame c .register bs = .fail .truncated) ∧
    ∀ (b0 b1 b2 b3 b4 b5 b6 b7 : Byte) (rest : List Byte),
      let got (auto1 auto2 err : Bool) : Parse :=
        .got (.register (b1.extractLsb' 4 4) (b1.extractLsb' 0 4 ++ b2.extractLsb' 2 6)
          (b2.extractLsb' 0 2 ++ b3 ++ b4.extractLsb' 2 6) (b4.extractLsb' 0 2 ++ b5) (b6 ++ b7) auto1 auto2 err) 8
      unpackFrame c .register (b0 :: b1 :: b2 :: b3 :: b4 :: b5 :: b6 :: b7 :: rest) =
        if b0 = c.aurAA then got true true false
        else if b0 = c.aurAE then got true false false
        else if b0 = c.aurEA then got false true false
        else if b0 = c.aurEE then got false false false
        else if b0 = c.aurErr then got false false true
        else .fail .noMatch

/-- `FUNPACK.DATA` (R229): any 8 bytes are a DataFrame, each half typed by `SUB.CLASSIFY` and cut accordingly. The
layouts of the sub-frames are the spec's decision D15 (log 12). -/
def Obligations.DataParserFollowsItsRule : Prop :=
  ∀ c : Config, c.frameLen = 8 →
    (∀ bs : List Byte, bs.length < 8 → unpackFrame c .data bs = .fail .truncated) ∧
    ∀ (s0 s1 : BitVec 32) (rest : List Byte),
      let sub (s : BitVec 32) (k : SubKind) : SubFrame :=
        match k with
        | .isSync => .syncFill
        | .isHeader => .header { trigId := s.extractLsb' 20 5, trigTag := s.extractLsb' 15 5, bcid := s.extractLsb' 0 15 }
        | .isHit =>
          .hit { ccol := s.extractLsb' 26 6, crow := s.extractLsb' 20 6, region := s.extractLsb' 16 4,
                 tot0 := s.extractLsb' 12 4, tot1 := s.extractLsb' 8 4, tot2 := s.extractLsb' 4 4,
                 tot3 := s.extractLsb' 0 4 }
      unpackFrame c .data
          (s0.extractLsb' 24 8 :: s0.extractLsb' 16 8 :: s0.extractLsb' 8 8 :: s0.extractLsb' 0 8 ::
            s1.extractLsb' 24 8 :: s1.extractLsb' 16 8 :: s1.extractLsb' 8 8 :: s1.extractLsb' 0 8 :: rest) =
        .got (.data (sub s0 (subClassify c s0 .pos0)) (sub s1 (subClassify c s1 .pos1))) 8

/-! ## Flags and classes -/

/-- `AURORA.DEC` undoes `AURORA.ENC` but for the auto flags of an error, and reads every illegal byte as the error (R223,
R224, R40). -/
def Obligations.AuroraDecodeInvertsEncode : Prop :=
  ∀ c : Config, c.auroraWf = true →
    (∀ auto1 auto2, auroraDec c (auroraEnc c auto1 auto2 false) = (auto1, auto2, false)) ∧
    (∀ auto1 auto2, auroraDec c (auroraEnc c auto1 auto2 true) = (false, false, true)) ∧
    (∀ a, auroraLegal c a = false → auroraDec c a = (false, false, true)) ∧
    ∀ a, auroraLegal c a = true ↔ ∃ auto1 auto2 err, auroraEnc c auto1 auto2 err = a

/-- `SUB.CLASSIFY` (R250): the sync test first and in position 0 only, then the comparison of the leading bits. The
width and the identifier are the configuration's (decision D4, log 7); that the sync pattern is the whole word and is
tested first is the spec's decision D18 (log 13). -/
def Obligations.SubFrameTypedByLeadingBits : Prop :=
  ∀ (c : Config) (s : BitVec 32) (position : SubPos), c.discWf = true →
    subClassify c s position =
      if position = .pos0 ∧ s = (c.blankCode ++ 0#24 : BitVec 32) then .isSync
      else if s.extractLsb' (32 - c.hdrDiscWidth) c.hdrDiscWidth = c.hdrId.extractLsb' (7 - c.hdrDiscWidth) c.hdrDiscWidth
      then .isHeader
      else .isHit

/-- The format tag of a DataFrame, as a record and on the byte level, is the cross product of its two sub-frame
discriminations (R251). -/
def Obligations.FormatTagIsTheCrossProduct : Prop :=
  ∀ (c : Config) (s0 s1 : BitVec 32),
    (fmtTag (subUnpack c s0 .pos0) (subUnpack c s1 .pos1) =
      match subClassify c s0 .pos0, subClassify c s1 .pos1 with
      | .isHeader, .isHeader => some .headerHeader
      | .isHeader, .isHit => some .headerHit
      | .isHit, .isHeader => some .hitHeader
      | .isHit, .isHit => some .hitHit
      | .isSync, .isHeader => some .syncHeader
      | .isSync, .isHit => some .syncHit
      | _, .isSync => none) ∧
    fmtTag (subUnpack c s0 .pos0) (subUnpack c s1 .pos1) = some (fmtTagOfWords c s0 s1) ∧
    ∀ (h0 h1 : Header) (x0 x1 : Hit),
      fmtTag (.header h0) (.header h1) = some .headerHeader ∧ fmtTag (.header h0) (.hit x1) = some .headerHit ∧
      fmtTag (.hit x0) (.header h1) = some .hitHeader ∧ fmtTag (.hit x0) (.hit x1) = some .hitHit ∧
      fmtTag .syncFill (.header h1) = some .syncHeader ∧ fmtTag .syncFill (.hit x1) = some .syncHit

/-- `FRAME.CLASSIFY` is what the frame channel finds by probing (R253). The spec marks the totality [derived]. -/
def Obligations.FrameClassIsWhatTheChannelFinds : Prop :=
  ∀ (c : Config) (bs : List Byte), c.frameProbeOrder = [.register, .blank, .data] → c.frameLen = 8 → 8 ≤ bs.length →
    ∃ i, probe c .frame bs = .instr i 8 ∧
      match frameClassify c bs with
      | some .isRegister => frameVariant i = some .register
      | some .isBlank => i = .blank
      | some (.isData tag) => ∃ sub0 sub1, i = .data sub0 sub1 ∧ fmtTag sub0 sub1 = some tag
      | none => False

/-- The header-like Hits, for the three widths the source names (R254). The spec marks its table [derived]; the value
of `HDR_ID` is PRESUMED (log 7), the extent of the sync pattern is the spec's decision D18 (log 13). -/
def Obligations.HeaderLikeHitsByWidth : Prop :=
  ∀ (c : Config) (x : Hit), c.hdrId = 1 → c.blankCode = 0x1E →
    (c.hdrDiscWidth = 7 → (headerLike c x = true ↔ x.ccol = 0 ∧ 32 ≤ x.crow.toNat)) ∧
    (c.hdrDiscWidth = 4 → (headerLike c x = true ↔ x.ccol.toNat ≤ 3)) ∧
    (c.hdrDiscWidth = 2 → (headerLike c x = true ↔ x.ccol.toNat ≤ 15)) ∧
    (syncLike c x = true ↔ x = { ccol := 7, crow := 32, region := 0, tot0 := 0, tot1 := 0, tot2 := 0, tot3 := 0 })

/-- With the defaults, the register-like Hits and the one blank-like DataFrame (R255). By R227 a DataFrame with the
sync-like Hit packs to the same bytes; it is not stable (R231 (c)). No Header collides with another frame (log 34).
The spec marks the sets [derived]; the aurora codes are PRESUMED (log 6). -/
def Obligations.RegisterLikeAndBlankLikeFrames : Prop :=
  (∀ x : Hit, registerLike Config.rd53a (.hit x) = true ↔
      (x.ccol = 45 ∧ x.crow.toNat ≤ 15) ∨ (x.ccol = 21 ∧ 16 ≤ x.crow.toNat ∧ x.crow.toNat ≤ 31) ∨
        (x.ccol = 38 ∧ 16 ≤ x.crow.toNat ∧ x.crow.toNat ≤ 31) ∨ (x.ccol = 52 ∧ 32 ≤ x.crow.toNat ∧ x.crow.toNat ≤ 47) ∨
        (x.ccol = 51 ∧ x.crow.toNat ≤ 15)) ∧
    (∀ h : Header, registerLike Config.rd53a (.header h) = false) ∧ registerLike Config.rd53a .syncFill = false ∧
    ∀ (sub0 sub1 : SubFrame),
      let zero : SubFrame := .hit { ccol := 0, crow := 0, region := 0, tot0 := 0, tot1 := 0, tot2 := 0, tot3 := 0 }
      let syncLikeHit : SubFrame := .hit { ccol := 7, crow := 32, region := 0, tot0 := 0, tot1 := 0, tot2 := 0, tot3 := 0 }
      (blankLike sub0 sub1 = true ↔ sub0 = .syncFill ∧ sub1 = zero) ∧
      (encode Config.rd53a (.data sub0 sub1) = encode Config.rd53a .blank ↔
        (sub0 = .syncFill ∨ sub0 = syncLikeHit) ∧ sub1 = zero) ∧
      (encode Config.rd53a (.data sub0 sub1) = encode Config.rd53a .blank ∧ subStable Config.rd53a .pos0 sub0 = true ↔
        blankLike sub0 sub1 = true) ∧
      headerCollides Config.rd53a sub0 sub1 = false

/-- `HIT.PIXEL` (R230): `col = 8*ccol + 4*region[0] + i`, `row = 8*crow + region[3:1]`. Which bits of `region` go
where is the spec's decision D23 (log 17). -/
def Obligations.HitPixelCoordinates : Prop :=
  ∀ (x : Hit) (i : BitVec 2),
    (hitPixel x i).1.toNat = 8 * x.ccol.toNat + 4 * (x.region.toNat % 2) + i.toNat ∧
      (hitPixel x i).2.toNat = 8 * x.crow.toNat + x.region.toNat / 2

/-! ## Laws of the codec -/

/-- The bijection law of the symbol codec (R142). -/
def Obligations.SymbolCodecIsABijection : Prop :=
  ∀ c : Config, c.symWf = true →
    (∀ v : Group, symDec c (symEnc c v) = some v) ∧
    (∀ (b : Byte) (v : Group), symDec c b = some v → symEnc c v = b) ∧
    (∀ b : Byte, symDec c b = none ↔ b ∉ c.sym.toList) ∧
    ((List.range 256).filter fun n => (symDec c (BitVec.ofNat 8 n)).isNone).length = 224

/-- Every command record parses back from its own bytes, whatever follows them (R181). The spec marks the law
[derived] for every well-formed configuration. -/
def Obligations.CommandRecordsRoundTrip : Prop :=
  ∀ (c : Config) (i : Instr) (v : CmdVariant) (rest : List Byte), c.wf = true → i.wf = true →
    commandVariant i = some v → unpackCommand c v (encode c i ++ rest) = .got i (wireLen c i)

/-- The frame records that parse back from their own bytes, and what the others parse as (R231). The spec marks the
law [derived]; that a Header in position 0 which spells the sync word does not parse back is the model's addition (log
13). -/
def Obligations.FrameRecordsRoundTrip : Prop :=
  ∀ (c : Config) (rest : List Byte), c.wf = true →
    unpackFrame c .blank (encode c .blank ++ rest) = .got .blank 8 ∧
    (∀ status addr1 val1 addr2 val2 auto1 auto2 err,
      unpackFrame c .register (encode c (.register status addr1 val1 addr2 val2 auto1 auto2 err) ++ rest) =
        .got (.register status addr1 val1 addr2 val2 (auto1 && !err) (auto2 && !err) err) 8) ∧
    ∀ sub0 sub1, sub1 ≠ .syncFill →
      (unpackFrame c .data (encode c (.data sub0 sub1) ++ rest) = .got (.data sub0 sub1) 8 ↔
        subStable c .pos0 sub0 = true ∧ headerReadAsSync c sub0 = false ∧ subStable c .pos1 sub1 = true)

/-- With R7 (e) and (f), the decoder of the command link reads what the encoder writes, for every command record and
whatever follows (R207, R209). The spec marks both rules [derived]. -/
def Obligations.CommandDecoderReadsTheEncoder : Prop :=
  ∀ (c : Config) (i : Instr) (rest : List Byte), c.wf = true → c.separate = true → i.wf = true → i.link = .command →
    decode c .command (encode c i ++ rest) = .instr i (wireLen c i)

/-- With R7 (e) and (f) the probe order changes no result (R207). The spec marks the rule [derived]; the orders are
permutations (log 8). -/
def Obligations.ProbeOrderChangesNoResult : Prop :=
  ∀ (c : Config) (order : List CmdVariant) (bs : List Byte), c.wf = true → c.separate = true →
    order.isPerm cmdOrderOfR202 = true →
    probe { c with cmdProbeOrder := order } .command bs = probe c .command bs

/-- The encode-decode law of the command channel (R209). The spec marks the law [derived]. -/
def Obligations.CommandStreamsRoundTrip : Prop :=
  ∀ (c : Config) (seq : List Instr), c.wf = true → c.separate = true → seqWf .command seq = true →
    decodeStream c .command (encodeStream c seq) = (seq, [])

/-- The encode-decode law of the frame channel: exactly the sequences of channel-stable records come back (R275). The
spec marks the law [derived]; that the Headers of log 34 do not come back is the model's addition, and the defaults
have none. -/
def Obligations.FrameStreamsRoundTripIffStable : Prop :=
  ∀ (c : Config) (seq : List Instr), c.wf = true → c.frameProbeOrder = [.register, .blank, .data] →
    seqWf .frame seq = true →
    (decodeStream c .frame (encodeStream c seq) = (seq, []) ↔ seq.all (channelReadsBack c) = true) ∧
    (decodeStream c .frame (encodeStream c seq)).1.length = seq.length ∧
    (decodeStream c .frame (encodeStream c seq)).2 = [] ∧
    ∀ (k : Nat) (i : Instr), seq[k]? = some i → channelReadsBack c i = true →
      (decodeStream c .frame (encodeStream c seq)).1[k]? = some i

/-- A frame decode finds one frame for every 8 bytes and skips the rest, whatever the bytes are (R272). The spec marks
the rule [derived]. -/
def Obligations.FrameDecodeCountsFrames : Prop :=
  ∀ (c : Config) (buf : List Byte), c.wf = true →
    (decodeStream c .frame buf).1.length = buf.length / 8 ∧ (decodeStream c .frame buf).2.length = buf.length % 8

/-- Every byte of a decoded buffer is part of one record or skipped once, and the skips are told in order, each with
the byte that stands there (R205, R274, R287). The spec marks the law [derived]; the content of an entry is its
decision D11 (log 14). -/
def Obligations.DecodeAccountsForEveryByte : Prop :=
  ∀ (c : Config) (ch : Channel) (buf : List Byte), c.frameLen = 8 →
    buf.length = totalLen c (decodeStream c ch buf).1 + (decodeStream c ch buf).2.length ∧
    ((decodeStream c ch buf).2.map Skipped.pos).Pairwise (· < ·) ∧
    ∀ e ∈ (decodeStream c ch buf).2, buf[e.pos]? = some e.byte

/-- With R7 (e) and (f), a command cut short by the end of the buffer yields no record, and each of its bytes is
skipped (R206). The spec gives it for the default configuration, and only the number of skips is R206's: the content
of a `diag` entry is the spec's decision D11 (log 14). -/
def Obligations.TruncatedCommandIsSkippedWhole : Prop :=
  ∀ (c : Config) (i : Instr) (k : Nat), c.wf = true → c.separate = true → i.wf = true → i.link = .command →
    k < wireLen c i →
    decodeStream c .command ((encode c i).take k) =
      ([], ((encode c i).take k).zipIdx.map fun e => { pos := e.2, byte := e.1 })

/-! ## The machine meets the pure functions -/

/-- A decode call, run to its end, returns what the pure `CC.DECODE` or `FC.DECODE` returns, replaces the instance's
`seq` and changes nothing else, within `len(IN)` steps and the two that begin and end it (R201, R204, R271, R313). The
number of steps is the model's (log 29), that `seq` is replaced the spec's decision D12 (log 28), the content of a
`diag` entry its decision D11 (log 14). -/
def Obligations.DecodeCallRunsTheStream : Prop :=
  ∀ (s : State) (ch : Channel) (id : Nat) (buf : List Byte) (rest : List Call),
    s.inv = true → s.task = .idle → s.calls = .decode ch id buf :: rest → decodable s.cfg ch buf = true →
    ∃ k, k ≤ buf.length + 2 ∧
      Host.Core.run core k s = .next (answer
        (.decoded (decodeStream s.cfg ch buf).1 (decodeStream s.cfg ch buf).2)
        (State.setChan { s with calls := rest } ch id
          { s.chan ch id with seq := (decodeStream s.cfg ch buf).1 }))

/-- An encode call, run to its end, returns the packs one after another and their total length, leaves them in the
instance, and changes nothing else (R200, R270, R47). The number of steps is the model's (log 29), that the instance
holds `seq` from then on its DESIGN CHOICE (log 28). -/
def Obligations.EncodeCallRunsTheStream : Prop :=
  ∀ (s : State) (ch : Channel) (id : Nat) (seq : List Instr) (rest : List Call),
    s.inv = true → s.task = .idle → s.calls = .encode ch id seq :: rest → encodable s.cfg ch seq = true →
    Host.Core.run core (seq.length + 2) s = .next (answer
      (.encoded (encodeStream s.cfg seq) (totalLen s.cfg seq))
      (State.setChan { s with calls := rest } ch id
        { seq := seq, bytes := ofBytes (encodeStream s.cfg seq), length := totalLen s.cfg seq }))

/-- The pack, the parsers and the symbol codec, called alone, answer in one step and change nothing else (R313): a pack
returns the record's bytes and their number (R150, R220), `SYM.ENC` the table entry (R140), `SYM.DEC` its index or `none`
(R141), a parser its result (R170, R220). The calls are the model's (log 1). -/
def Obligations.SingleStepCallsAnswerAtOnce : Prop :=
  ∀ (s : State) (rest : List Call), s.inv = true → s.task = .idle →
    (∀ i, s.calls = .pack i :: rest → i.wf = true → i.link ≠ .symbol → fits s.cfg.bufMax (wireLen s.cfg i) = true →
      step s = .next (answer (.encoded (encode s.cfg i) (wireLen s.cfg i)) { s with calls := rest })) ∧
    (∀ v : Group, s.calls = .symEnc v :: rest →
      ∃ b, s.cfg.sym.toList[v.toNat]? = some b ∧ step s = .next (answer (.byte b) { s with calls := rest })) ∧
    (∀ (v : Group) (b : Byte), s.calls = .symDec b :: rest → s.cfg.sym.toList[v.toNat]? = some b →
      step s = .next (answer (.symbol (some v)) { s with calls := rest })) ∧
    (∀ b : Byte, s.calls = .symDec b :: rest → b ∉ s.cfg.sym.toList →
      step s = .next (answer (.symbol none) { s with calls := rest })) ∧
    (∀ v buf p, s.calls = .unpackCommand v buf p :: rest → p ≤ buf.length → fits s.cfg.bufMax buf.length = true →
      step s = .next (answer (.parsed (unpackCommand s.cfg v (buf.drop p))) { s with calls := rest })) ∧
    ∀ v buf p, s.calls = .unpackFrame v buf p :: rest → p ≤ buf.length → fits s.cfg.bufMax buf.length = true →
      step s = .next (answer (.parsed (unpackFrame s.cfg v (buf.drop p))) { s with calls := rest })

/-- `UNSYMS`, run by symbols, returns the values of the `k` symbols, or `none` if one of them is no symbol, and
changes nothing else (R171). The number of steps is the model's (log 29). -/
def Obligations.UnsymsCallDecodesOrFailsWhole : Prop :=
  ∀ (s : State) (buf : List Byte) (q k : Nat) (rest : List Call), s.inv = true → s.task = .idle →
    s.calls = .unsyms buf q k :: rest → q + k ≤ buf.length → s.cfg.bufMax = none →
    ∃ n, n ≤ k + 2 ∧
      Host.Core.run core n s = .next (answer (.symbols (unsyms s.cfg k (buf.drop q))) { s with calls := rest })

/-! ## Calls -/

/-- A refused call has no effect but its answer (R285). The answer `rejected` is the model's DESIGN CHOICE (log 19).
-/
def Obligations.RejectedCallChangesNothing : Prop :=
  ∀ (s : State) (c : Call) (rest : List Call), s.task = .idle → s.calls = c :: rest → admissible s c = false →
    step s = .next { s with calls := rest, returns := s.returns ++ [.rejected] }

/-- A bounded realisation refuses an encode that does not fit, and does not truncate (R81). The answer `rejected` is
the model's DESIGN CHOICE (log 9). -/
def Obligations.EncodeBeyondCapacityIsRefused : Prop :=
  ∀ (s : State) (ch : Channel) (id : Nat) (seq : List Instr) (rest : List Call) (m : Nat), s.task = .idle →
    s.calls = .encode ch id seq :: rest →
    (s.cfg.bufMax = some m ∧ m < totalLen s.cfg seq ∨ s.cfg.seqMax = some m ∧ m < seq.length) →
    step s = .next { s with calls := rest, returns := s.returns ++ [.rejected] }

/-- `clear` empties an instance; `get_bytes` and `get_length` return what the instance holds and change nothing
(R297). The effect of `clear` is the spec's decision D12 (log 28). -/
def Obligations.ClearAndGetFollowTheirRule : Prop :=
  ∀ (s : State) (ch : Channel) (id : Nat) (rest : List Call), s.inv = true → s.task = .idle →
    (s.calls = .clear ch id :: rest →
      ∃ t, step s = .next t ∧ (t.chan ch id).seq = [] ∧ (t.chan ch id).length = 0 ∧
        t.returns = s.returns ++ [.done] ∧ t.calls = rest ∧ t.task = .idle ∧ t.cfg = s.cfg ∧
        ∀ ch' id', ch' ≠ ch ∨ id' ≠ id → t.chan ch' id' = s.chan ch' id') ∧
    (s.calls = .getBytes ch id :: rest →
      step s = .next { s with
        calls := rest,
        returns := s.returns ++ [.bytes (bytesFrom (s.chan ch id).bytes 0 (s.chan ch id).length)] }) ∧
    (s.calls = .getLength ch id :: rest →
      step s = .next { s with calls := rest, returns := s.returns ++ [.length (s.chan ch id).length] })

/-- A step changes no channel instance but the one the running operation or the call is about (R296). The numbers of
the instances are the model's (log 25). -/
def Obligations.OtherInstancesAreUntouched : Prop :=
  ∀ (s t : State) (ch : Channel) (id : Nat), step s = .next t → s.task ≠ .encode ch id → s.task ≠ .decode ch id →
    (∀ seq, s.calls.head? ≠ some (.encode ch id seq)) → s.calls.head? ≠ some (.clear ch id) →
    t.chan ch id = s.chan ch id

/-! ## The whole machine -/

/-- Every step keeps the invariant. `State.inv` is the model's own predicate, made of R7, R43, R47, R61, R63, R205 and
R274. -/
def Obligations.StepKeepsTheInvariant : Prop :=
  ∀ s t : State, s.inv = true → step s = .next t → t.inv = true

/-- No operation faults and none is stuck (R293). The premise is the model's invariant. -/
def Obligations.NoOperationFaultsOrSticks : Prop := ∀ s : State, s.inv = true → ∃ t, step s = .next t

/-- No step writes a constant table or a parameter (R31, R48, R143). What a step is, is the model's (log 29). -/
def Obligations.StepKeepsTheConfiguration : Prop := ∀ s t : State, step s = .next t → t.cfg = s.cfg

/-- What a decode returns depends on the buffer and the configuration alone: not on the instance, on what it held, or
on anything that happened before (R13, R49, R311). The calls and the number of steps are the model's (logs 1, 29). -/
def Obligations.DecodeForgetsHistory : Prop :=
  ∀ (s1 s2 : State) (ch : Channel) (id1 id2 : Nat) (buf : List Byte) (rest1 rest2 : List Call),
    s1.inv = true → s2.inv = true → s1.task = .idle → s2.task = .idle → s1.cfg = s2.cfg →
    s1.calls = .decode ch id1 buf :: rest1 → s2.calls = .decode ch id2 buf :: rest2 →
    decodable s1.cfg ch buf = true →
    ∃ k t1 t2 out diag, Host.Core.run core k s1 = .next t1 ∧ Host.Core.run core k s2 = .next t2 ∧
      t1.returns = s1.returns ++ [.decoded out diag] ∧ t2.returns = s2.returns ++ [.decoded out diag]

/-! ## Decoding is right -/

/-- Words written out from the spec's encodings decode to the records they stand for (the model's default tables, logs 4 to
7). -/
def Obligations.SampleWordsDecode : Prop :=
  decode Config.rd53a .command [0x5A, 0x5A] = .instr .ecr 2 ∧
    decode Config.rd53a .command [0x41, 0x7E] = .instr .sync 2 ∧
    decode Config.rd53a .command [0x5C, 0x5C, 0x8D, 0xAA] = .instr (.pulse 3 9) 4 ∧
    decode Config.rd53a .command [0x63, 0x63, 0x8D, 0xB4, 0xB2, 0xA9] = .instr (.cal 3 0 5 42 1 17) 6 ∧
    decode Config.rd53a .command [0x66, 0x66, 0x8D, 0x71, 0xC5, 0x74, 0xA9, 0xB1] = .instr (.wrreg 3 44 0x1234) 8 ∧
    decode Config.rd53a .command [0x35, 0x8E] = .instr (.trigger 5 7) 2 ∧
    decode Config.rd53a .data [0x99, 0x52, 0x24, 0x48, 0xD1, 0x2C, 0xBE, 0xEF] =
      .instr (.register 5 0x089 0x1234 0x12C 0xBEEF false true false) 8 ∧
    decode Config.rd53a .symbol [0xAA] = .instr (.sym 18) 1
end

