-- ==== Sys2Proof/Laws/Codec.lean ====
section
/-! SUPPORT. The laws of the symbol codec, of the trigger table, of payload groups and of frame words. -/

namespace Sys2Proof

/-! ## The table search -/

theorem indexFrom_none_iff (b : Byte) (xs : List Byte) (k : Nat) : indexFrom b xs k = none ↔ b ∉ xs := by
  induction xs generalizing k with
  | nil => simp [indexFrom]
  | cons x xs ih =>
    unfold indexFrom
    split
    · next h => simp [h]
    · next h => simp [ih, Ne.symm h]

theorem indexFrom_some (b : Byte) (xs : List Byte) (k j : Nat) (h : indexFrom b xs k = some j) :
    k ≤ j ∧ xs[j - k]? = some b := by
  induction xs generalizing k with
  | nil => simp [indexFrom] at h
  | cons x xs ih =>
    unfold indexFrom at h
    split at h
    · next hx => cases h; simp [hx]
    · obtain ⟨h1, h2⟩ := ih (k + 1) h
      refine ⟨by omega, ?_⟩
      rw [show j - k = (j - (k + 1)) + 1 by omega, List.getElem?_cons_succ, h2]

theorem indexFrom_of_nodup (xs : List Byte) (k i : Nat) (b : Byte) (hn : xs.Nodup) (h : xs[i]? = some b) :
    indexFrom b xs k = some (k + i) := by
  induction xs generalizing k i with
  | nil => simp at h
  | cons x xs ih =>
    have hc := List.nodup_cons.1 hn
    cases i with
    | zero => simp at h; simp [indexFrom, h]
    | succ i =>
      rw [List.getElem?_cons_succ] at h
      have hne : x ≠ b := fun e => hc.1 (e ▸ List.mem_of_getElem? h)
      rw [indexFrom, if_neg hne, ih (k + 1) i hc.2 h]
      congr 1; omega

/-! ## The symbol codec -/

theorem symEnc_getElem? (c : Config) (v : Group) : c.sym.toList[v.toNat]? = some (symEnc c v) := by
  have h : v.toNat < 32 := v.isLt
  simp [symEnc, h]

theorem symEnc_mem (c : Config) (v : Group) : symEnc c v ∈ c.sym.toList :=
  List.mem_of_getElem? (symEnc_getElem? c v)

theorem symDec_symEnc (c : Config) (h : c.symWf = true) (v : Group) : symDec c (symEnc c v) = some v := by
  have hn : c.sym.toList.Nodup := by simpa [Config.symWf] using h
  rw [symDec, indexFrom_of_nodup c.sym.toList 0 v.toNat _ hn (symEnc_getElem? c v)]
  simp

theorem symEnc_of_symDec (c : Config) (b : Byte) (v : Group) (h : symDec c b = some v) : symEnc c v = b := by
  obtain ⟨j, hj, rfl⟩ := Option.map_eq_some_iff.1 h
  obtain ⟨-, hb⟩ := indexFrom_some b _ _ _ hj
  rw [Nat.sub_zero] at hb
  have hlt : j < 32 := by
    have := (List.getElem?_eq_some_iff.1 hb).1
    simpa using this
  have h2 := symEnc_getElem? c (BitVec.ofNat 5 j)
  rw [show (BitVec.ofNat 5 j).toNat = j by simp; omega, hb] at h2
  exact (Option.some.inj h2).symm

theorem symDec_none_iff (c : Config) (b : Byte) : symDec c b = none ↔ b ∉ c.sym.toList := by
  rw [symDec, Option.map_eq_none_iff, indexFrom_none_iff]

/-! ## The trigger table -/

theorem trigOf_zero (c : Config) : trigOf c 0 = none := rfl

theorem trigOf_some (c : Config) (bc : BitVec 4) (h : bc ≠ 0) :
    ∃ p, trigOf c bc = some p ∧ c.trig.toList[bc.toNat - 1]? = some p := by
  have h1 : bc.toNat < 16 := bc.isLt
  have h0 : bc.toNat ≠ 0 := fun e => h (BitVec.eq_of_toNat_eq (by simpa using e))
  have hl : bc.toNat - 1 < c.trig.toList.length := by simp; omega
  have e := List.getElem?_eq_getElem hl
  exact ⟨c.trig.toList[bc.toNat - 1], by rw [trigOf, if_neg h, e], e⟩

theorem trigOf_mem (c : Config) (bc : BitVec 4) (p : Byte) (h : trigOf c bc = some p) : p ∈ c.trig.toList := by
  unfold trigOf at h
  split at h
  · cases h
  · exact List.mem_of_getElem? h

theorem untrig_trigOf (c : Config) (hw : c.trigWf = true) (bc : BitVec 4) (p : Byte) (h : trigOf c bc = some p) :
    untrig c p = some bc := by
  have hn : c.trig.toList.Nodup := by simpa [Config.trigWf] using hw
  unfold trigOf at h
  split at h
  · cases h
  · next h0 =>
    have h1 : bc.toNat ≠ 0 := fun e => h0 (BitVec.eq_of_toNat_eq (by simpa using e))
    rw [untrig, indexFrom_of_nodup _ 0 _ p hn h]
    simp only [Nat.zero_add, Option.map_some, Option.some.injEq]
    rw [show bc.toNat - 1 + 1 = bc.toNat by omega]
    simp

theorem trigOf_of_untrig (c : Config) (b : Byte) (bc : BitVec 4) (h : untrig c b = some bc) : trigOf c bc = some b := by
  obtain ⟨j, hj, rfl⟩ := Option.map_eq_some_iff.1 h
  obtain ⟨-, hb⟩ := indexFrom_some b _ _ _ hj
  rw [Nat.sub_zero] at hb
  have hlt : j < 15 := by
    have := (List.getElem?_eq_some_iff.1 hb).1
    simpa using this
  have hn : (BitVec.ofNat 4 (j + 1)).toNat = j + 1 := by simp; omega
  have h0 : BitVec.ofNat 4 (j + 1) ≠ 0 := fun e => by
    have := congrArg BitVec.toNat e
    rw [hn] at this
    simp at this
  rw [trigOf, if_neg h0, hn, Nat.add_sub_cancel, hb]

theorem untrig_ne_zero (c : Config) (b : Byte) (bc : BitVec 4) (h : untrig c b = some bc) : bc ≠ 0 := fun e => by
  have := trigOf_of_untrig c b bc h
  rw [e, trigOf_zero] at this
  cases this

theorem untrig_none_iff (c : Config) (b : Byte) : untrig c b = none ↔ b ∉ c.trig.toList := by
  rw [untrig, Option.map_eq_none_iff, indexFrom_none_iff]

/-! ## Payload groups -/

theorem unsyms_map_symEnc (c : Config) (h : c.symWf = true) (gs : List Group) (rest : List Byte) :
    unsyms c gs.length (gs.map (symEnc c) ++ rest) = some gs := by
  induction gs with
  | nil => rfl
  | cons g gs ih => simp [unsyms, symDec_symEnc c h, ih]

theorem unsyms_some_length (c : Config) (k : Nat) (bs : List Byte) (gs : List Group) (h : unsyms c k bs = some gs) :
    gs.length = k := by
  induction k generalizing bs gs with
  | zero => simp [unsyms] at h; simp [h]
  | succ k ih =>
    cases bs with
    | nil => simp [unsyms] at h
    | cons b bs =>
      unfold unsyms at h
      split at h
      · cases h
      · split at h
        · cases h
        · next hr => cases h; simp [ih _ _ hr]

@[simp] theorem cutGroups_length (k : Nat) (p : BitVec (5 * k)) : (cutGroups k p).length = k := by simp [cutGroups]

theorem joinNat_append (xs : List Group) (v : Group) (a : Nat) :
    joinNat (xs ++ [v]) a = 32 * joinNat xs a + v.toNat := by
  induction xs generalizing a with
  | nil => rfl
  | cons x xs ih => exact ih _

/-- Cutting a payload into groups and joining them gives its number back (R93, R171). -/
theorem joinNat_cutGroups (k : Nat) (p : BitVec (5 * k)) : joinNat (cutGroups k p) 0 = p.toNat := by
  suffices H : ∀ j, j ≤ k →
      joinNat ((List.range j).map fun i => p.extractLsb' (5 * (k - 1 - i)) 5) 0 = p.toNat / 2 ^ (5 * (k - j)) by
    have := H k (Nat.le_refl k)
    simpa [cutGroups] using this
  intro j
  induction j with
  | zero =>
    intro _
    have := p.isLt
    simp [joinNat, Nat.div_eq_of_lt this]
  | succ j ih =>
    intro hj
    rw [List.range_succ, List.map_append, List.map_cons, List.map_nil, joinNat_append, ih (by omega)]
    have e : 2 ^ (5 * (k - j)) = 2 ^ (5 * (k - (j + 1))) * 32 := by
      rw [show 5 * (k - j) = 5 * (k - (j + 1)) + 5 by omega, Nat.pow_add]
    have e2 : k - 1 - j = k - (j + 1) := by omega
    rw [e, ← Nat.div_div_eq_div_mul, BitVec.extractLsb'_toNat, Nat.shiftRight_eq_div_pow, e2]
    have := Nat.div_add_mod (p.toNat / 2 ^ (5 * (k - (j + 1)))) 32
    omega

theorem joinGroups_cutGroups (k : Nat) (p : BitVec (5 * k)) : joinGroups (5 * k) (cutGroups k p) = p := by
  rw [joinGroups, joinNat_cutGroups]
  simp

/-- The bytes of a payload read back as its groups (R171: "the inverse of R93"). -/
theorem unsyms_payload (c : Config) (h : c.symWf = true) (k : Nat) (p : BitVec (5 * k)) (rest : List Byte) :
    unsyms c k ((cutGroups k p).map (symEnc c) ++ rest) = some (cutGroups k p) := by
  have := unsyms_map_symEnc c h (cutGroups k p) rest
  rwa [cutGroups_length] at this

/-! ## Frame words -/

theorem word64_bytesOf64 (w : BitVec 64) (rest : List Byte) : word64 (bytesOf64 w ++ rest) = some w := by
  simp only [bytesOf64, List.cons_append, List.nil_append, word64, Option.some.injEq]
  ext i hi
  simp only [BitVec.getElem_append, BitVec.getElem_extractLsb']
  repeat' split
  all_goals (rw [BitVec.getLsbD_eq_getElem (by omega)]; congr 1; omega)

theorem word64_some_iff (bs : List Byte) : (word64 bs).isSome ↔ 8 ≤ bs.length := by
  rcases bs with _ | ⟨b0, _ | ⟨b1, _ | ⟨b2, _ | ⟨b3, _ | ⟨b4, _ | ⟨b5, _ | ⟨b6, _ | ⟨b7, bs⟩⟩⟩⟩⟩⟩⟩⟩ <;>
    simp [word64]

@[simp] theorem bytesOf64_length (w : BitVec 64) : (bytesOf64 w).length = 8 := rfl

theorem bytesOf64_injective (v w : BitVec 64) (h : bytesOf64 v = bytesOf64 w) : v = w := by
  have := word64_bytesOf64 v []
  rw [h, word64_bytesOf64] at this
  exact (Option.some.inj this).symm

end Sys2Proof
end

