-- ==== Sys2Proof/Laws/Decode.lean ====
section
/-! SUPPORT. What a parser and a probe round can answer: a record of the right kind, with its own wire length, inside the
bytes there are. -/

namespace Sys2Proof

theorem afterId_some (p : Byte × Byte) (bs rest : List Byte) (h : afterId p bs = some rest) :
    bs = p.1 :: p.2 :: rest := by
  match bs, h with
  | [], h => simp [afterId] at h
  | [_], h => simp [afterId] at h
  | b0 :: b1 :: r, h =>
    simp only [afterId, Option.ite_none_right_eq_some, Option.some.injEq] at h
    obtain ⟨⟨rfl, rfl⟩, rfl⟩ := h
    rfl

@[simp] theorem afterId_cons (p : Byte × Byte) (rest : List Byte) : afterId p (p.1 :: p.2 :: rest) = some rest := by
  simp [afterId]

/-- What a parser's success says of the record and of the bytes (R170, R220). -/
structure GoodParse (c : Config) (l : Link) (bs : List Byte) (r : Instr) (n : Nat) : Prop where
  wf : r.wf = true
  link : r.link = l
  len : n = wireLen c r
  fits : n ≤ bs.length
  pos : 0 < n

theorem unpackPlain_got (c : Config) (id : Byte × Byte) (rec : Instr) (bs : List Byte) (r : Instr) (n : Nat)
    (hw : rec.wf = true) (hl : rec.link = .command) (hn : wireLen c rec = 2)
    (h : (match afterId id bs with | none => Parse.fail .noMatch | some _ => .got rec 2) = .got r n) :
    r = rec ∧ GoodParse c .command bs r n := by
  split at h
  · cases h
  · next rest ha =>
    cases h
    have := afterId_some _ _ _ ha
    exact ⟨rfl, hw, hl, hn.symm, by simp [this], by omega⟩

theorem unpackCommand_got (c : Config) (v : CmdVariant) (bs : List Byte) (r : Instr) (n : Nat)
    (h : unpackCommand c v bs = .got r n) : commandVariant r = some v ∧ GoodParse c .command bs r n := by
  cases v <;> simp only [unpackCommand] at h
  case ecr => obtain ⟨rfl, g⟩ := unpackPlain_got c _ .ecr bs r n rfl rfl rfl h; exact ⟨rfl, g⟩
  case bcr => obtain ⟨rfl, g⟩ := unpackPlain_got c _ .bcr bs r n rfl rfl rfl h; exact ⟨rfl, g⟩
  case noop => obtain ⟨rfl, g⟩ := unpackPlain_got c _ .noop bs r n rfl rfl rfl h; exact ⟨rfl, g⟩
  case sync => obtain ⟨rfl, g⟩ := unpackPlain_got c _ .sync bs r n rfl rfl rfl h; exact ⟨rfl, g⟩
  case pulse =>
    simp only [unpackPulse] at h
    split at h <;> try cases h
    split at h <;> try cases h
    split at h <;> cases h
    exact ⟨rfl, rfl, rfl, rfl, by omega, by omega⟩
  case cal =>
    simp only [unpackCal] at h
    split at h <;> try cases h
    split at h <;> try cases h
    split at h <;> cases h
    exact ⟨rfl, rfl, rfl, rfl, by omega, by omega⟩
  case rdreg =>
    simp only [unpackRdReg] at h
    split at h <;> try cases h
    split at h <;> try cases h
    split at h <;> cases h
    exact ⟨rfl, rfl, rfl, rfl, by omega, by omega⟩
  case wrreg =>
    simp only [unpackWrReg] at h
    split at h <;> try cases h
    split at h <;> try cases h
    split at h <;> try cases h
    split at h
    · split at h <;> try cases h
      simp only [unpackWrRegSextuple] at h
      split at h <;> cases h
      exact ⟨rfl, rfl, rfl, rfl, by omega, by omega⟩
    · simp only [unpackWrRegSingle] at h
      split at h <;> cases h
      exact ⟨rfl, rfl, rfl, rfl, by omega, by omega⟩
  case trigger =>
    simp only [unpackTrigger] at h
    split at h <;> try cases h
    split at h <;> try cases h
    next hu =>
    split at h <;> try cases h
    split at h <;> cases h
    exact ⟨rfl, by simpa [Instr.wf] using untrig_ne_zero c _ _ hu, rfl, rfl, by simp, by omega⟩

theorem subUnpack_pos1_ne_sync (c : Config) (s : BitVec 32) : subUnpack c s .pos1 ≠ .syncFill := by
  unfold subUnpack subClassify
  simp only [reduceCtorEq, false_and, if_false]
  split_ifs <;> simp

theorem frameWord_some (c : Config) (bs : List Byte) (w : BitVec 64) (h : frameWord c bs = some w) : word64 bs = some w := by
  unfold frameWord at h
  split at h
  · cases h
  · exact h

/-- With `FRAME_LEN = 8` a frame word is there exactly when 8 bytes are. -/
theorem frameWord_eq_word64 (c : Config) (bs : List Byte) (hc : c.frameLen = 8) : frameWord c bs = word64 bs := by
  unfold frameWord
  split
  · next hl =>
    rcases hw : word64 bs with _ | w
    · rfl
    · have := (word64_some_iff bs).1 (by simp [hw])
      omega
  · rfl

theorem unpackFrame_got (c : Config) (v : FrameVariant) (bs : List Byte) (r : Instr) (n : Nat)
    (hc : c.frameLen = 8) (h : unpackFrame c v bs = .got r n) : frameVariant r = some v ∧ n = 8 ∧ GoodParse c .data bs r n := by
  have h8 : ∀ w, frameWord c bs = some w → 8 ≤ bs.length := fun w hw =>
    (word64_some_iff bs).1 (by simp [frameWord_some c bs w hw])
  cases v <;> simp only [unpackFrame] at h
  case register =>
    simp only [unpackRegister] at h
    split at h <;> try cases h
    next w hw =>
    split at h <;> cases h
    exact ⟨rfl, hc, rfl, rfl, rfl, hc ▸ h8 w hw, by omega⟩
  case blank =>
    simp only [unpackBlank] at h
    split at h <;> try cases h
    next w hw =>
    split at h <;> cases h
    exact ⟨rfl, hc, rfl, rfl, rfl, hc ▸ h8 w hw, by omega⟩
  case data =>
    simp only [unpackData] at h
    split at h <;> cases h
    next w hw =>
    exact ⟨rfl, hc, by simpa [Instr.wf] using subUnpack_pos1_ne_sync c _, rfl, rfl, hc ▸ h8 w hw, by omega⟩

/-- A probe round that finds a record found it by one parser of the order. -/
theorem probeIn_instr {V : Type} (parser : V → Parse) (vs : List V) (r : Instr) (n : Nat)
    (h : probeIn parser vs = .instr r n) : ∃ v ∈ vs, parser v = .got r n := by
  induction vs with
  | nil => cases h
  | cons v vs ih =>
    unfold probeIn at h
    split at h
    · next hv => cases h; exact ⟨v, by simp, hv⟩
    · obtain ⟨u, hu, hp⟩ := ih h
      exact ⟨u, List.mem_cons_of_mem _ hu, hp⟩

theorem probeIn_undecodable {V : Type} (parser : V → Parse) (vs : List V) :
    probeIn parser vs = .undecodable ↔ ∀ v ∈ vs, ∃ e, parser v = .fail e := by
  induction vs with
  | nil => simp [probeIn]
  | cons v vs ih =>
    unfold probeIn
    split
    · next hv => simp [hv]
    · next hv => simp [hv, ih]

/-- What a probe round of a channel can find (R170, R203, R220, R271). -/
theorem probe_instr (c : Config) (ch : Channel) (bs : List Byte) (r : Instr) (n : Nat)
    (hc : c.frameLen = 8) (h : probe c ch bs = .instr r n) : GoodParse c ch.link bs r n := by
  cases ch
  · obtain ⟨v, -, hv⟩ := probeIn_instr _ _ _ _ h
    exact (unpackCommand_got c v bs r n hv).2
  · obtain ⟨v, -, hv⟩ := probeIn_instr _ _ _ _ h
    exact (unpackFrame_got c v bs r n hc hv).2.2

/-- What the decoder can find on any link. -/
theorem decode_instr (c : Config) (l : Link) (bs : List Byte) (r : Instr) (n : Nat)
    (hc : c.frameLen = 8) (h : decode c l bs = .instr r n) : GoodParse c l bs r n := by
  cases l
  · exact probe_instr c .command bs r n hc h
  · exact probe_instr c .frame bs r n hc h
  · simp only [decode, decodeSymbol] at h
    split at h <;> try cases h
    split at h <;> cases h
    exact ⟨rfl, rfl, rfl, by simp, by omega⟩

end Sys2Proof
end

