-- ==== Sys2Proof/Laws/State.lean ====
section
/-! SUPPORT. One lemma per field and update of the state: what each update makes the field hold. -/

namespace Sys2Proof.Machine

section accept

variable (i : Instr) (n : Nat) (s : State)

@[simp] theorem accept_cfg : (accept i n s).cfg = s.cfg := rfl
@[simp] theorem accept_cmdChans : (accept i n s).cmdChans = s.cmdChans := rfl
@[simp] theorem accept_frmChans : (accept i n s).frmChans = s.frmChans := rfl
@[simp] theorem accept_task : (accept i n s).task = s.task := rfl
@[simp] theorem accept_input : (accept i n s).input = s.input := rfl
@[simp] theorem accept_inLen : (accept i n s).inLen = s.inLen := rfl
@[simp] theorem accept_pos : (accept i n s).pos = s.pos + n := rfl
@[simp] theorem accept_out : (accept i n s).out = s.out ++ [i] := rfl
@[simp] theorem accept_diag : (accept i n s).diag = s.diag := rfl
@[simp] theorem accept_todo : (accept i n s).todo = s.todo := rfl
@[simp] theorem accept_outBuf : (accept i n s).outBuf = s.outBuf := rfl
@[simp] theorem accept_off : (accept i n s).off = s.off := rfl
@[simp] theorem accept_calls : (accept i n s).calls = s.calls := rfl
@[simp] theorem accept_returns : (accept i n s).returns = s.returns := rfl

end accept

section emit

variable (bs : List Byte) (s : State)

@[simp] theorem emit_cfg : (emit bs s).cfg = s.cfg := rfl
@[simp] theorem emit_cmdChans : (emit bs s).cmdChans = s.cmdChans := rfl
@[simp] theorem emit_frmChans : (emit bs s).frmChans = s.frmChans := rfl
@[simp] theorem emit_task : (emit bs s).task = s.task := rfl
@[simp] theorem emit_input : (emit bs s).input = s.input := rfl
@[simp] theorem emit_inLen : (emit bs s).inLen = s.inLen := rfl
@[simp] theorem emit_pos : (emit bs s).pos = s.pos := rfl
@[simp] theorem emit_out : (emit bs s).out = s.out := rfl
@[simp] theorem emit_diag : (emit bs s).diag = s.diag := rfl
@[simp] theorem emit_todo : (emit bs s).todo = s.todo := rfl
@[simp] theorem emit_outBuf : (emit bs s).outBuf = memWriteBytes s.outBuf s.off bs := rfl
@[simp] theorem emit_off : (emit bs s).off = s.off + bs.length := rfl
@[simp] theorem emit_calls : (emit bs s).calls = s.calls := rfl
@[simp] theorem emit_returns : (emit bs s).returns = s.returns := rfl

end emit

section takeSkip

variable (b : Byte) (s : State)

@[simp] theorem takeSkip_cfg : (takeSkip b s).cfg = s.cfg := rfl
@[simp] theorem takeSkip_cmdChans : (takeSkip b s).cmdChans = s.cmdChans := rfl
@[simp] theorem takeSkip_frmChans : (takeSkip b s).frmChans = s.frmChans := rfl
@[simp] theorem takeSkip_task : (takeSkip b s).task = s.task := rfl
@[simp] theorem takeSkip_input : (takeSkip b s).input = s.input := rfl
@[simp] theorem takeSkip_inLen : (takeSkip b s).inLen = s.inLen := rfl
@[simp] theorem takeSkip_pos : (takeSkip b s).pos = s.pos + 1 := rfl
@[simp] theorem takeSkip_out : (takeSkip b s).out = s.out := rfl
@[simp] theorem takeSkip_diag : (takeSkip b s).diag = s.diag ++ [{ pos := s.pos, byte := b }] := rfl
@[simp] theorem takeSkip_todo : (takeSkip b s).todo = s.todo := rfl
@[simp] theorem takeSkip_outBuf : (takeSkip b s).outBuf = s.outBuf := rfl
@[simp] theorem takeSkip_off : (takeSkip b s).off = s.off := rfl
@[simp] theorem takeSkip_calls : (takeSkip b s).calls = s.calls := rfl
@[simp] theorem takeSkip_returns : (takeSkip b s).returns = s.returns := rfl

end takeSkip

section answer

variable (r : Ret) (s : State)

@[simp] theorem answer_cfg : (answer r s).cfg = s.cfg := rfl
@[simp] theorem answer_cmdChans : (answer r s).cmdChans = s.cmdChans := rfl
@[simp] theorem answer_frmChans : (answer r s).frmChans = s.frmChans := rfl
@[simp] theorem answer_task : (answer r s).task = s.task := rfl
@[simp] theorem answer_input : (answer r s).input = s.input := rfl
@[simp] theorem answer_inLen : (answer r s).inLen = s.inLen := rfl
@[simp] theorem answer_pos : (answer r s).pos = s.pos := rfl
@[simp] theorem answer_out : (answer r s).out = s.out := rfl
@[simp] theorem answer_diag : (answer r s).diag = s.diag := rfl
@[simp] theorem answer_todo : (answer r s).todo = s.todo := rfl
@[simp] theorem answer_outBuf : (answer r s).outBuf = s.outBuf := rfl
@[simp] theorem answer_off : (answer r s).off = s.off := rfl
@[simp] theorem answer_calls : (answer r s).calls = s.calls := rfl
@[simp] theorem answer_returns : (answer r s).returns = s.returns ++ [r] := rfl

end answer

section endTask

variable (s : State)

@[simp] theorem endTask_cfg : (endTask s).cfg = s.cfg := rfl
@[simp] theorem endTask_cmdChans : (endTask s).cmdChans = s.cmdChans := rfl
@[simp] theorem endTask_frmChans : (endTask s).frmChans = s.frmChans := rfl
@[simp] theorem endTask_task : (endTask s).task = .idle := rfl
@[simp] theorem endTask_input : (endTask s).input = [] := rfl
@[simp] theorem endTask_inLen : (endTask s).inLen = 0 := rfl
@[simp] theorem endTask_pos : (endTask s).pos = 0 := rfl
@[simp] theorem endTask_out : (endTask s).out = [] := rfl
@[simp] theorem endTask_diag : (endTask s).diag = [] := rfl
@[simp] theorem endTask_todo : (endTask s).todo = [] := rfl
@[simp] theorem endTask_outBuf : (endTask s).outBuf = [] := rfl
@[simp] theorem endTask_off : (endTask s).off = 0 := rfl
@[simp] theorem endTask_calls : (endTask s).calls = s.calls := rfl
@[simp] theorem endTask_returns : (endTask s).returns = s.returns := rfl

end endTask

section startEncode

variable (t : Task) (seq : List Instr) (s : State)

@[simp] theorem startEncode_cfg : (startEncode t seq s).cfg = s.cfg := rfl
@[simp] theorem startEncode_cmdChans : (startEncode t seq s).cmdChans = s.cmdChans := rfl
@[simp] theorem startEncode_frmChans : (startEncode t seq s).frmChans = s.frmChans := rfl
@[simp] theorem startEncode_task : (startEncode t seq s).task = t := rfl
@[simp] theorem startEncode_input : (startEncode t seq s).input = [] := rfl
@[simp] theorem startEncode_inLen : (startEncode t seq s).inLen = 0 := rfl
@[simp] theorem startEncode_pos : (startEncode t seq s).pos = 0 := rfl
@[simp] theorem startEncode_out : (startEncode t seq s).out = [] := rfl
@[simp] theorem startEncode_diag : (startEncode t seq s).diag = [] := rfl
@[simp] theorem startEncode_todo : (startEncode t seq s).todo = seq := rfl
@[simp] theorem startEncode_outBuf : (startEncode t seq s).outBuf = [] := rfl
@[simp] theorem startEncode_off : (startEncode t seq s).off = 0 := rfl
@[simp] theorem startEncode_calls : (startEncode t seq s).calls = s.calls := rfl
@[simp] theorem startEncode_returns : (startEncode t seq s).returns = s.returns := rfl

end startEncode

section startDecode

variable (t : Task) (buf : List Byte) (s : State)

@[simp] theorem startDecode_cfg : (startDecode t buf s).cfg = s.cfg := rfl
@[simp] theorem startDecode_cmdChans : (startDecode t buf s).cmdChans = s.cmdChans := rfl
@[simp] theorem startDecode_frmChans : (startDecode t buf s).frmChans = s.frmChans := rfl
@[simp] theorem startDecode_task : (startDecode t buf s).task = t := rfl
@[simp] theorem startDecode_input : (startDecode t buf s).input = ofBytes buf := rfl
@[simp] theorem startDecode_inLen : (startDecode t buf s).inLen = buf.length := rfl
@[simp] theorem startDecode_pos : (startDecode t buf s).pos = 0 := rfl
@[simp] theorem startDecode_out : (startDecode t buf s).out = [] := rfl
@[simp] theorem startDecode_diag : (startDecode t buf s).diag = [] := rfl
@[simp] theorem startDecode_todo : (startDecode t buf s).todo = [] := rfl
@[simp] theorem startDecode_outBuf : (startDecode t buf s).outBuf = [] := rfl
@[simp] theorem startDecode_off : (startDecode t buf s).off = 0 := rfl
@[simp] theorem startDecode_calls : (startDecode t buf s).calls = s.calls := rfl
@[simp] theorem startDecode_returns : (startDecode t buf s).returns = s.returns := rfl

end startDecode

section setChan

variable (s : State) (ch : Channel) (id : Nat) (x : Chan)

@[simp] theorem setChan_cfg : (s.setChan ch id x).cfg = s.cfg := by cases ch <;> rfl
@[simp] theorem setChan_command_cmdChans : (s.setChan .command id x).cmdChans = putChan s.cmdChans id x := rfl
@[simp] theorem setChan_frame_cmdChans : (s.setChan .frame id x).cmdChans = s.cmdChans := rfl
@[simp] theorem setChan_frame_frmChans : (s.setChan .frame id x).frmChans = putChan s.frmChans id x := rfl
@[simp] theorem setChan_command_frmChans : (s.setChan .command id x).frmChans = s.frmChans := rfl
@[simp] theorem setChan_task : (s.setChan ch id x).task = s.task := by cases ch <;> rfl
@[simp] theorem setChan_input : (s.setChan ch id x).input = s.input := by cases ch <;> rfl
@[simp] theorem setChan_inLen : (s.setChan ch id x).inLen = s.inLen := by cases ch <;> rfl
@[simp] theorem setChan_pos : (s.setChan ch id x).pos = s.pos := by cases ch <;> rfl
@[simp] theorem setChan_out : (s.setChan ch id x).out = s.out := by cases ch <;> rfl
@[simp] theorem setChan_diag : (s.setChan ch id x).diag = s.diag := by cases ch <;> rfl
@[simp] theorem setChan_todo : (s.setChan ch id x).todo = s.todo := by cases ch <;> rfl
@[simp] theorem setChan_outBuf : (s.setChan ch id x).outBuf = s.outBuf := by cases ch <;> rfl
@[simp] theorem setChan_off : (s.setChan ch id x).off = s.off := by cases ch <;> rfl
@[simp] theorem setChan_calls : (s.setChan ch id x).calls = s.calls := by cases ch <;> rfl
@[simp] theorem setChan_returns : (s.setChan ch id x).returns = s.returns := by cases ch <;> rfl

end setChan

end Sys2Proof.Machine
end

