-- ==== Sys2Proof/Laws/Memory.lean ====
section
/-! SUPPORT. The laws of the tables and buffers: a read after a write, a write elsewhere, and that every operation keeps
the canonical form. -/

namespace Sys2Proof.Machine

variable {α : Type}

/-! ## Tables keyed by rising numbers -/

theorem findKey_putKey_same (t : List (Nat × α)) (a : Nat) (x : α) : findKey (putKey t a x) a = some x := by
  induction t with
  | nil => simp [putKey, findKey]
  | cons e t ih =>
    obtain ⟨b, v⟩ := e
    unfold putKey
    split
    · simp [findKey]
    · split
      · simp [findKey]
      · next h => simp [findKey, h, ih]

theorem findKey_putKey_other (t : List (Nat × α)) {a b : Nat} (x : α) (h : b ≠ a) :
    findKey (putKey t a x) b = findKey t b := by
  induction t with
  | nil => simp [putKey, findKey, h]
  | cons e t ih =>
    obtain ⟨k, v⟩ := e
    unfold putKey
    split
    · simp [findKey, h]
    · split
      · next hk => subst hk; simp [findKey, h]
      · simp only [findKey, ih]

theorem findKey_dropKey_other (t : List (Nat × α)) {a b : Nat} (h : b ≠ a) :
    findKey (dropKey t a) b = findKey t b := by
  induction t with
  | nil => rfl
  | cons e t ih =>
    obtain ⟨k, v⟩ := e
    unfold dropKey
    split
    · next hk => subst hk; simp [findKey, h]
    · simp only [findKey, ih]

/-- A strictly rising table, said of its keys. -/
theorem rising_iff_pairwise (t : List (Nat × α)) : rising t = true ↔ (t.map Prod.fst).Pairwise (· < ·) := by
  induction t with
  | nil => simp [rising]
  | cons e t ih =>
    obtain ⟨a, v⟩ := e
    cases t with
    | nil => simp [rising]
    | cons f t =>
      obtain ⟨b, w⟩ := f
      simp only [rising, Bool.and_eq_true, decide_eq_true_eq, ih, List.map_cons]
      constructor
      · rintro ⟨hab, hp⟩
        rw [List.pairwise_cons]
        refine ⟨fun k hk => ?_, hp⟩
        rcases List.mem_cons.1 hk with rfl | hk
        · exact hab
        · exact Nat.lt_trans hab ((List.pairwise_cons.1 hp).1 k hk)
      · intro hp
        have h := List.pairwise_cons.1 hp
        exact ⟨h.1 b (by simp), h.2⟩

theorem mem_keys_putKey (t : List (Nat × α)) (a : Nat) (x : α) (k : Nat) :
    k ∈ (putKey t a x).map Prod.fst ↔ k = a ∨ k ∈ t.map Prod.fst := by
  induction t with
  | nil => simp [putKey]
  | cons e t ih =>
    obtain ⟨b, v⟩ := e
    unfold putKey
    split
    · simp
    · split
      · next h => subst h; simp
      · simp only [List.map_cons, List.mem_cons, ih]
        tauto

theorem rising_putKey (t : List (Nat × α)) (a : Nat) (x : α) (h : rising t = true) : rising (putKey t a x) = true := by
  rw [rising_iff_pairwise] at *
  induction t with
  | nil => simp [putKey]
  | cons e t ih =>
    obtain ⟨b, v⟩ := e
    have hp := List.pairwise_cons.1 h
    unfold putKey
    split
    · next hab =>
      refine List.pairwise_cons.2 ⟨fun k hk => ?_, h⟩
      rcases List.mem_cons.1 hk with rfl | hk
      · exact hab
      · exact Nat.lt_trans hab (hp.1 k hk)
    · split
      · next hab => subst hab; exact h
      · next h1 h2 =>
        refine List.pairwise_cons.2 ⟨fun k hk => ?_, ih hp.2⟩
        rcases (mem_keys_putKey t a x k).1 hk with rfl | hk
        · exact (by omega : b < k)
        · exact hp.1 k hk

theorem keys_dropKey_sublist (t : List (Nat × α)) (a : Nat) :
    ((dropKey t a).map Prod.fst).Sublist (t.map Prod.fst) := by
  induction t with
  | nil => simp [dropKey]
  | cons e t ih =>
    obtain ⟨b, v⟩ := e
    unfold dropKey
    split
    · exact List.sublist_cons_self _ _
    · exact ih.cons_cons b

theorem rising_dropKey (t : List (Nat × α)) (a : Nat) (h : rising t = true) : rising (dropKey t a) = true := by
  rw [rising_iff_pairwise] at *
  exact h.sublist (keys_dropKey_sublist t a)

theorem findKey_none_of_not_mem (t : List (Nat × α)) (a : Nat) (h : a ∉ t.map Prod.fst) : findKey t a = none := by
  induction t with
  | nil => rfl
  | cons e t ih =>
    obtain ⟨b, v⟩ := e
    simp only [List.map_cons, List.mem_cons, not_or] at h
    simp [findKey, h.1, ih h.2]

theorem findKey_dropKey_same (t : List (Nat × α)) (a : Nat) (h : rising t = true) : findKey (dropKey t a) a = none := by
  rw [rising_iff_pairwise] at h
  induction t with
  | nil => rfl
  | cons e t ih =>
    obtain ⟨b, v⟩ := e
    have hp := List.pairwise_cons.1 h
    unfold dropKey
    split
    · next hab =>
      subst hab
      exact findKey_none_of_not_mem t a fun hm => absurd (hp.1 a hm) (Nat.lt_irrefl a)
    · next hab => simp [findKey, hab, ih hp.2]

theorem mem_putKey (t : List (Nat × α)) (a : Nat) (x : α) (e : Nat × α) (h : e ∈ putKey t a x) :
    e = (a, x) ∨ e ∈ t := by
  induction t with
  | nil => exact .inl (by simpa [putKey] using h)
  | cons f t ih =>
    obtain ⟨b, v⟩ := f
    unfold putKey at h
    split at h
    · simpa using h
    · split at h
      · rcases List.mem_cons.1 h with rfl | h
        · exact .inl rfl
        · exact .inr (List.mem_cons_of_mem _ h)
      · rcases List.mem_cons.1 h with rfl | h
        · exact .inr (by simp)
        · rcases ih h with h | h
          · exact .inl h
          · exact .inr (List.mem_cons_of_mem _ h)

theorem mem_dropKey (t : List (Nat × α)) (a : Nat) (e : Nat × α) (h : e ∈ dropKey t a) : e ∈ t := by
  induction t with
  | nil => exact h
  | cons f t ih =>
    obtain ⟨b, v⟩ := f
    unfold dropKey at h
    split at h
    · exact List.mem_cons_of_mem _ h
    · rcases List.mem_cons.1 h with rfl | h
      · simp
      · exact List.mem_cons_of_mem _ (ih h)

theorem findKey_mem (t : List (Nat × α)) (a : Nat) (x : α) (h : findKey t a = some x) : (a, x) ∈ t := by
  induction t with
  | nil => simp [findKey] at h
  | cons e t ih =>
    obtain ⟨b, v⟩ := e
    unfold findKey at h
    split at h
    · next hab => cases h; subst hab; simp
    · exact List.mem_cons_of_mem _ (ih h)

/-! ## Buffers -/

@[simp] theorem memRead_memWrite_same (m : Memory) (a : Nat) (b : Byte) : memRead (memWrite m a b) a = some b :=
  findKey_putKey_same m a b

theorem memRead_memWrite_other (m : Memory) {a k : Nat} (b : Byte) (h : k ≠ a) :
    memRead (memWrite m a b) k = memRead m k :=
  findKey_putKey_other m b h

theorem Memory.wf_memWrite (m : Memory) (a : Nat) (b : Byte) (h : Memory.wf m = true) :
    Memory.wf (memWrite m a b) = true :=
  rising_putKey m a b h

theorem Memory.wf_memWriteBytes (m : Memory) (a : Nat) (bs : List Byte) (h : Memory.wf m = true) :
    Memory.wf (memWriteBytes m a bs) = true := by
  induction bs generalizing m a with
  | nil => exact h
  | cons b bs ih => exact ih _ _ (Memory.wf_memWrite m a b h)

theorem Memory.wf_ofBytes (bs : List Byte) : Memory.wf (ofBytes bs) = true :=
  Memory.wf_memWriteBytes [] 0 bs rfl

theorem memWriteBytes_append (m : Memory) (a : Nat) (xs ys : List Byte) :
    memWriteBytes m a (xs ++ ys) = memWriteBytes (memWriteBytes m a xs) (a + xs.length) ys := by
  induction xs generalizing m a with
  | nil => rfl
  | cons x xs ih =>
    simp only [List.cons_append, memWriteBytes, List.length_cons, ih]
    congr 1
    omega

/-- What `MemWrite` does: the written offsets read as written, every other as before. -/
theorem memRead_memWriteBytes (m : Memory) (a : Nat) (bs : List Byte) (k : Nat) :
    memRead (memWriteBytes m a bs) k = if a ≤ k ∧ k < a + bs.length then bs[k - a]? else memRead m k := by
  induction bs generalizing m a with
  | nil =>
    have : ¬ (a ≤ k ∧ k < a) := by omega
    simp [memWriteBytes, this]
  | cons b bs ih =>
    simp only [memWriteBytes, ih, List.length_cons]
    by_cases hk : k = a
    · subst hk; simp
    · rw [memRead_memWrite_other m b hk]
      by_cases h : a + 1 ≤ k ∧ k < a + 1 + bs.length
      · have h' : a ≤ k ∧ k < a + (bs.length + 1) := by omega
        obtain ⟨j, rfl⟩ : ∃ j, k = a + 1 + j := ⟨k - a - 1, by omega⟩
        have e1 : a + 1 + j - (a + 1) = j := by omega
        have e2 : a + 1 + j - a = j + 1 := by omega
        rw [if_pos h, if_pos h', e1, e2, List.getElem?_cons_succ]
      · have h' : ¬ (a ≤ k ∧ k < a + (bs.length + 1)) := by omega
        rw [if_neg h, if_neg h']

theorem memRead_ofBytes (bs : List Byte) (k : Nat) : memRead (ofBytes bs) k = bs[k]? := by
  rw [ofBytes, memRead_memWriteBytes]
  by_cases h : k < bs.length
  · simp [h]
  · simp [h, memRead, findKey]

theorem bytesFrom_eq_of_read (m : Memory) (bs : List Byte) (a n : Nat)
    (h : ∀ k, k < n → memRead m (a + k) = bs[a + k]?) (hn : a + n ≤ bs.length) :
    bytesFrom m a n = (bs.drop a).take n := by
  induction n generalizing a with
  | zero => simp [bytesFrom]
  | succ n ih =>
    have ha : a < bs.length := by omega
    have h0 : memRead m a = some bs[a] := by
      have := h 0 (by omega)
      simpa [List.getElem?_eq_getElem ha] using this
    rw [bytesFrom, h0]
    simp only
    rw [ih (a + 1) (fun k hk => by have := h (k + 1) (by omega); rwa [show a + (k + 1) = a + 1 + k by omega] at this)
      (by omega), List.drop_eq_getElem_cons ha, List.take_succ_cons]

/-- Reading back a buffer made of bytes. -/
theorem bytesFrom_ofBytes (bs : List Byte) (a : Nat) : bytesFrom (ofBytes bs) a (bs.length - a) = bs.drop a := by
  by_cases h : a ≤ bs.length
  · rw [bytesFrom_eq_of_read (ofBytes bs) bs a (bs.length - a) (fun k _ => memRead_ofBytes bs (a + k)) (by omega)]
    apply List.take_of_length_le
    simp
  · rw [show bs.length - a = 0 by omega, bytesFrom, List.drop_eq_nil_of_le (by omega)]

theorem findKey_isSome_iff (t : List (Nat × α)) (a : Nat) : (findKey t a).isSome ↔ a ∈ t.map Prod.fst := by
  induction t with
  | nil => simp [findKey]
  | cons e t ih =>
    obtain ⟨b, v⟩ := e
    unfold findKey
    split
    · next h => simp [h]
    · next h => simp only [ih, List.map_cons, List.mem_cons, h, false_or]

theorem Memory.exact_iff (m : Memory) (n : Nat) : Memory.exact m n = true ↔ m.map Prod.fst = List.range n := by
  simp [Memory.exact]

/-- In a buffer of `n` bytes an offset has a byte exactly when it is below `n` (R61, R62). -/
theorem memRead_isSome_of_exact (m : Memory) (n k : Nat) (h : Memory.exact m n = true) :
    (memRead m k).isSome ↔ k < n := by
  rw [memRead, findKey_isSome_iff, (Memory.exact_iff m n).1 h, List.mem_range]

theorem Memory.wf_of_exact (m : Memory) (n : Nat) (h : Memory.exact m n = true) : Memory.wf m = true := by
  rw [Memory.wf, rising_iff_pairwise, (Memory.exact_iff m n).1 h]
  exact List.pairwise_lt_range

theorem putKey_fresh (t : List (Nat × α)) (a : Nat) (x : α) (h : ∀ k ∈ t.map Prod.fst, k < a) :
    putKey t a x = t ++ [(a, x)] := by
  induction t with
  | nil => rfl
  | cons e t ih =>
    obtain ⟨b, v⟩ := e
    have hb : b < a := h b (by simp)
    unfold putKey
    rw [if_neg (by omega), if_neg (by omega), ih fun k hk => h k (by simp [List.mem_map] at hk ⊢; tauto)]
    rfl

/-- Writing at the end of a buffer keeps it without gaps (R63). -/
theorem Memory.exact_memWriteBytes (m : Memory) (n : Nat) (bs : List Byte) (h : Memory.exact m n = true) :
    Memory.exact (memWriteBytes m n bs) (n + bs.length) = true := by
  induction bs generalizing m n with
  | nil => exact h
  | cons b bs ih =>
    have hw : Memory.exact (memWrite m n b) (n + 1) = true := by
      rw [Memory.exact_iff] at *
      rw [memWrite, putKey_fresh m n b fun k hk => by rw [h] at hk; exact List.mem_range.1 hk]
      simp [h, List.range_succ]
    have := ih _ _ hw
    simpa [memWriteBytes, Nat.add_assoc, Nat.add_comm 1] using this

theorem Memory.exact_ofBytes (bs : List Byte) : Memory.exact (ofBytes bs) bs.length = true := by
  simpa [ofBytes] using Memory.exact_memWriteBytes [] 0 bs rfl

theorem bytesFrom_length_of_exact (m : Memory) (n a : Nat) (h : Memory.exact m n = true) :
    (bytesFrom m a (n - a)).length = n - a := by
  suffices H : ∀ j a, a + j ≤ n → (bytesFrom m a j).length = j by
    by_cases ha : a ≤ n
    · exact H _ _ (by omega)
    · rw [show n - a = 0 by omega]; rfl
  intro j
  induction j with
  | zero => intros; rfl
  | succ j ih =>
    intro a ha
    have hs := (memRead_isSome_of_exact m n a h).2 (by omega)
    obtain ⟨b, hb⟩ := Option.isSome_iff_exists.1 hs
    rw [bytesFrom, hb]
    simp [ih (a + 1) (by omega)]

/-! ## Channel instances -/

theorem chan_setChan_same (s : State) (ch : Channel) (id : Nat) (x : Chan) (h : rising (s.chans ch) = true) :
    (s.setChan ch id x).chan ch id = x := by
  cases ch <;>
  · simp only [State.chan, State.chans, State.setChan, putChan] at *
    split
    · next hx => rw [findKey_dropKey_same _ _ h, hx]; rfl
    · rw [findKey_putKey_same]; rfl

theorem chan_setChan_other (s : State) (ch ch' : Channel) (id id' : Nat) (x : Chan) (h : ch' ≠ ch ∨ id' ≠ id) :
    (s.setChan ch id x).chan ch' id' = s.chan ch' id' := by
  cases ch <;> cases ch' <;> simp only [State.chan, State.chans, State.setChan, putChan, ne_eq, not_true, false_or,
    reduceCtorEq, not_false_eq_true, true_or] at *
  · split
    · rw [findKey_dropKey_other _ h]
    · rw [findKey_putKey_other _ _ h]
  · split
    · rw [findKey_dropKey_other _ h]
    · rw [findKey_putKey_other _ _ h]

theorem rising_putChan (t : List (Nat × Chan)) (id : Nat) (x : Chan) (h : rising t = true) :
    rising (putChan t id x) = true := by
  unfold putChan
  split
  · exact rising_dropKey t id h
  · exact rising_putKey t id x h

end Sys2Proof.Machine
end

