-- ==== Sys2Proof/Laws/PerInstr.lean ====
section
/-! SUPPORT. A law of every instruction as syntax: its encoding has its wire length (R161, R119), under every
configuration. -/

namespace Sys2Proof.Laws.EncodeLength

/-- The encoding of a record has the record's wire length. -/
def Statement (i : Instr) : Prop :=
  ∀ c : Config, c.frameLen = 8 → i.wf = true → (encode c i).length = wireLen c i

theorem packPayload_length (c : Config) (id : BitVec 16) (k : Nat) (p : BitVec (5 * k)) :
    (packPayload c id k p).length = k + 2 := by simp [packPayload]

theorem ecr : Statement .ecr := fun _ _ _ => rfl

theorem bcr : Statement .bcr := fun _ _ _ => rfl

theorem noop : Statement .noop := fun _ _ _ => rfl

theorem sync : Statement .sync := fun _ _ _ => rfl

theorem pulse (chipId length : BitVec 4) : Statement (.pulse chipId length) := fun c _ _ => packPayload_length c _ 2 _

theorem cal (chipId : BitVec 4) (edgeMode : BitVec 1) (edgeDelay : BitVec 3) (edgeWidth : BitVec 6)
    (auxMode : BitVec 1) (auxDelay : BitVec 5) :
    Statement (.cal chipId edgeMode edgeDelay edgeWidth auxMode auxDelay) := fun c _ _ => packPayload_length c _ 4 _

theorem rdreg (chipId : BitVec 4) (address : BitVec 9) : Statement (.rdreg chipId address) :=
  fun c _ _ => packPayload_length c _ 4 _

theorem wrreg (chipId : BitVec 4) (address : BitVec 9) (value : BitVec 16) : Statement (.wrreg chipId address value) :=
  fun c _ _ => packPayload_length c _ 6 _

theorem wrreg6 (chipId : BitVec 4) (address : BitVec 9) (v0 v1 v2 v3 v4 v5 : BitVec 16) :
    Statement (.wrreg6 chipId address v0 v1 v2 v3 v4 v5) := fun c _ _ => packPayload_length c _ 22 _

theorem trigger (bc : BitVec 4) (tag : BitVec 5) : Statement (.trigger bc tag) := fun c hf h => by
  obtain ⟨p, hp, -⟩ := trigOf_some c bc (by simpa [Instr.wf] using h)
  simp [encode, packTrigger, hp, wireLen]

theorem blank : Statement .blank := fun _ hf _ => hf.symm

theorem register (status : BitVec 4) (addr1 : BitVec 10) (val1 : BitVec 16) (addr2 : BitVec 10) (val2 : BitVec 16)
    (auto1 auto2 err : Bool) : Statement (.register status addr1 val1 addr2 val2 auto1 auto2 err) := fun _ hf _ => hf.symm

theorem data (sub0 sub1 : SubFrame) : Statement (.data sub0 sub1) := fun c hf h => by
  have : sub1 ≠ .syncFill := by simpa [Instr.wf] using h
  simp [encode, packData, this, wireLen, hf]

theorem sym (v : Group) : Statement (.sym v) := fun _ _ _ => rfl

end Sys2Proof.Laws.EncodeLength
end

