-- ==== Sys2Proof/Laws/Ops.lean ====
section
/-! SUPPORT. What the shared operations, `exec` and a step can do: one lemma each. -/

namespace Sys2Proof.Machine

theorem perform_decoding (i : Instr) (n : Nat) (bs : List Byte) (s : State) (h : s.task.decoding = true) :
    perform i n bs s = .next (accept i n s) := by simp [perform, h]

theorem perform_writing (i : Instr) (n : Nat) (bs : List Byte) (s : State) (h : s.task.decoding = false) :
    perform i n bs s = .next (emit bs s) := by simp [perform, h]

/-- The meaning of every record is the shared operation on its wire length and its encoding. -/
theorem exec_of_wf (i : Instr) (s : State) (h : i.wf = true) :
    exec i s = perform i (wireLen s.cfg i) (encode s.cfg i) s := by
  cases i with
  | trigger bc tag =>
    obtain ⟨p, hp, -⟩ := trigOf_some s.cfg bc (by simpa [Instr.wf] using h)
    simp [exec, execTrigger, packTrigger, encode, hp, wireLen]
  | data sub0 sub1 =>
    have : sub1 ≠ .syncFill := by simpa [Instr.wf] using h
    simp [exec, execData, packData, encode, this, wireLen]
  | _ => rfl

/-- A term that is no record is refused by name. -/
theorem exec_of_not_wf (i : Instr) (s : State) (h : i.wf = false) : exec i s = .refused (.noSuchRecord i) := by
  cases i with
  | trigger bc tag =>
    have : bc = 0 := by simpa [Instr.wf] using h
    subst this
    have hz : trigOf s.cfg 0#4 = none := rfl
    simp [exec, execTrigger, packTrigger, hz]
  | data sub0 sub1 =>
    have : sub1 = .syncFill := by simpa [Instr.wf] using h
    subst this
    simp [exec, execData, packData]
  | _ => cases h

theorem encode_length (c : Config) (i : Instr) (hf : c.frameLen = 8) (h : i.wf = true) :
    (encode c i).length = wireLen c i := by
  cases i
  · exact Laws.EncodeLength.ecr c hf h
  · exact Laws.EncodeLength.bcr c hf h
  · exact Laws.EncodeLength.noop c hf h
  · exact Laws.EncodeLength.sync c hf h
  · exact Laws.EncodeLength.pulse _ _ c hf h
  · exact Laws.EncodeLength.cal _ _ _ _ _ _ c hf h
  · exact Laws.EncodeLength.rdreg _ _ c hf h
  · exact Laws.EncodeLength.wrreg _ _ _ c hf h
  · exact Laws.EncodeLength.wrreg6 _ _ _ _ _ _ _ _ c hf h
  · exact Laws.EncodeLength.trigger _ _ c hf h
  · exact Laws.EncodeLength.blank c hf h
  · exact Laws.EncodeLength.register _ _ _ _ _ _ _ _ c hf h
  · exact Laws.EncodeLength.data _ _ c hf h
  · exact Laws.EncodeLength.sym _ c hf h

/-- The window of a buffer made of bytes is those bytes from the cursor on. -/
theorem window_ofBytes (s : State) (buf : List Byte) (hi : s.input = ofBytes buf) (hl : s.inLen = buf.length) :
    window s = buf.drop s.pos := by rw [window, hi, hl, bytesFrom_ofBytes]

theorem window_length (s : State) (h : s.input.exact s.inLen = true) : (window s).length = s.inLen - s.pos :=
  bytesFrom_length_of_exact _ _ _ h

/-! ## One step, by the running operation -/

theorem step_idle_wait (s : State) (ht : s.task = .idle) (hc : s.calls = []) : step s = .next s := by
  simp [step, ht, hc]

theorem step_idle_call (s : State) (c : Call) (rest : List Call) (ht : s.task = .idle) (hc : s.calls = c :: rest) :
    step s = beginCall c { s with calls := rest } := by simp [step, ht, hc]

theorem step_encode_cons (s : State) (ch : Channel) (id : Nat) (i : Instr) (rest : List Instr)
    (ht : s.task = .encode ch id) (hd : s.todo = i :: rest) : step s = exec i { s with todo := rest } := by
  simp [step, ht, hd]

theorem step_encode_nil (s : State) (ch : Channel) (id : Nat) (ht : s.task = .encode ch id) (hd : s.todo = []) :
    step s = .next (finishEncode ch id s) := by simp [step, ht, hd]

theorem step_decode_more (s : State) (ch : Channel) (id : Nat) (ht : s.task = .decode ch id) (hp : s.pos < s.inLen) :
    step s = decodeStep s := by simp [step, ht, hp]

theorem step_decode_end (s : State) (ch : Channel) (id : Nat) (ht : s.task = .decode ch id) (hp : ¬ s.pos < s.inLen) :
    step s = .next (finishDecode ch id s) := by simp [step, ht, hp]

theorem step_unsyms_more (s : State) (ht : s.task = .unsyms) (hp : s.pos < s.inLen) : step s = symbolStep s := by
  simp [step, ht, hp]

theorem step_unsyms_end (s : State) (ht : s.task = .unsyms) (hp : ¬ s.pos < s.inLen) :
    step s = .next (finishUnsyms s) := by simp [step, ht, hp]

/-! ## A call -/

/-- Whether a call is admissible does not depend on the calls that wait. -/
@[simp] theorem admissible_with_calls (s : State) (rest : List Call) (c : Call) :
    admissible { s with calls := rest } c = admissible s c := by cases c <;> rfl

@[simp] theorem endTask_emit (bs : List Byte) (s : State) : endTask (emit bs s) = endTask s := rfl

@[simp] theorem endTask_accept (i : Instr) (n : Nat) (s : State) : endTask (accept i n s) = endTask s := rfl

@[simp] theorem endTask_endTask (s : State) : endTask (endTask s) = endTask s := rfl

theorem beginCall_rejected (c : Call) (s : State) (h : admissible s c = false) : beginCall c s = .next (answer .rejected s) := by
  simp [beginCall, h]

theorem beginCall_admitted (c : Call) (s : State) (h : admissible s c = true) : beginCall c s = beginAdmitted c s := by
  simp [beginCall, h]

/-- All a single pack does, its record being one: it returns the record's bytes and ends. -/
theorem packStep_of_wf (i : Instr) (s : State) (h : i.wf = true) :
    packStep i s = .next (finishPack (emit (encode s.cfg i) (endTask s))) := by
  simp [packStep, exec_of_wf i (endTask s) h, perform, Task.decoding]

/-- An admissible call answers a next state. -/
theorem beginAdmitted_next (c : Call) (s : State) (h : admissible s c = true) : ∃ t, beginAdmitted c s = .next t := by
  cases c with
  | pack i =>
    have hi : i.wf = true := by
      simp only [admissible, Bool.and_eq_true] at h
      exact h.1.1
    exact ⟨_, packStep_of_wf i s hi⟩
  | _ => exact ⟨_, rfl⟩

/-- Every call, admissible or not, answers a next state. -/
theorem beginCall_next (c : Call) (s : State) : ∃ t, beginCall c s = .next t := by
  cases h : admissible s c
  · exact ⟨_, beginCall_rejected c s h⟩
  · rw [beginCall_admitted c s h]
    exact beginAdmitted_next c s h

/-! ## A round of a decode -/

/-- What one step of a channel decode can do, inside its buffer: accept the record the probe round finds, or skip the byte
at the cursor (R203, R271). -/
theorem decodeStep_cases (s : State) (ch : Channel) (id : Nat) (hc : s.cfg.frameLen = 8) (ht : s.task = .decode ch id)
    (hx : s.input.exact s.inLen = true) (hp : s.pos < s.inLen) :
    (∃ i n, probe s.cfg ch (window s) = .instr i n ∧ GoodParse s.cfg ch.link (window s) i n ∧
        decodeStep s = .next (accept i n s)) ∨
      (∃ b, probe s.cfg ch (window s) = .undecodable ∧ memRead s.input s.pos = some b ∧
        decodeStep s = .next (takeSkip b s)) := by
  have hf : fetch s = probe s.cfg ch (window s) := by
    cases ch <;> simp [fetch, ht, Task.link, Channel.link, decode]
  rcases hd : probe s.cfg ch (window s) with ⟨i, n⟩ | _
  · have g := probe_instr _ _ _ _ _ hc hd
    refine .inl ⟨i, n, rfl, g, ?_⟩
    rw [decodeStep, hf, hd]
    simp only
    rw [exec_of_wf i s g.wf, perform_decoding _ _ _ _ (by simp [ht, Task.decoding]), g.len]
  · obtain ⟨b, hb⟩ := Option.isSome_iff_exists.1 ((memRead_isSome_of_exact _ _ s.pos hx).2 hp)
    refine .inr ⟨b, rfl, hb, ?_⟩
    rw [decodeStep, hf, hd]
    simp only [hb]

/-- What one step of a symbol decode can do, inside its buffer: accept the symbol, or end the whole with `none`. -/
theorem symbolStep_cases (s : State) (ht : s.task = .unsyms) :
    (∃ v, decodeSymbol s.cfg (window s) = .instr (.sym v) 1 ∧ symbolStep s = .next (accept (.sym v) 1 s)) ∨
      (decodeSymbol s.cfg (window s) = .undecodable ∧ symbolStep s = .next (failUnsyms s)) := by
  have hf : fetch s = decodeSymbol s.cfg (window s) := by simp [fetch, ht, Task.link, decode]
  rcases hd : decodeSymbol s.cfg (window s) with ⟨i, n⟩ | _
  · have hd' := hd
    unfold decodeSymbol at hd'
    split at hd' <;> try cases hd'
    split at hd' <;> cases hd'
    next v _ =>
    refine .inl ⟨v, rfl, ?_⟩
    rw [symbolStep, hf, hd]
    simp only
    rw [exec_of_wf _ _ rfl, perform_decoding _ _ _ _ (by simp [ht, Task.decoding])]
    rfl
  · refine .inr ⟨rfl, ?_⟩
    rw [symbolStep, hf, hd]

end Sys2Proof.Machine
end

