-- ==== Sys2Proof/Machine/Notation.lean ====
section
/-! DEFINITION. The notation of records that `30_encoding.md` R118 gives. It is the spec's own (decision D20, log 30) and no
operation of the block reads it. -/

namespace Sys2Proof

/-- Numbers in decimal, separated as R118 writes them. -/
def numbers (ns : List Nat) : String := String.intercalate ", " (ns.map toString)

/-- A boolean as R118 writes it. -/
def bit (b : Bool) : Nat := if b then 1 else 0

/-- A sub-frame: `HDR`, `HIT`, `SYNCFILL` (R118). -/
def SubFrame.written : SubFrame → String
  | .header h => "HDR " ++ numbers [h.trigId.toNat, h.trigTag.toNat, h.bcid.toNat]
  | .hit x =>
    "HIT " ++ numbers [x.ccol.toNat, x.crow.toNat, x.region.toNat, x.tot0.toNat, x.tot1.toNat, x.tot2.toNat, x.tot3.toNat]
  | .syncFill => "SYNCFILL"

/-- A record as R118 writes it; a symbol by the name of its row and its value. -/
def Instr.written : Instr → String
  | .ecr => "ECR"
  | .bcr => "BCR"
  | .noop => "NOOP"
  | .sync => "SYNC"
  | .pulse chipId length => "PULSE " ++ numbers [chipId.toNat, length.toNat]
  | .cal chipId edgeMode edgeDelay edgeWidth auxMode auxDelay =>
    "CAL " ++ numbers [chipId.toNat, edgeMode.toNat, edgeDelay.toNat, edgeWidth.toNat, auxMode.toNat, auxDelay.toNat]
  | .rdreg chipId address => "RDREG " ++ numbers [chipId.toNat, address.toNat]
  | .wrreg chipId address value => "WRREG " ++ numbers [chipId.toNat, address.toNat, value.toNat]
  | .wrreg6 chipId address v0 v1 v2 v3 v4 v5 =>
    "WRREG6 " ++ numbers [chipId.toNat, address.toNat, v0.toNat, v1.toNat, v2.toNat, v3.toNat, v4.toNat, v5.toNat]
  | .trigger bc tag => "TRIGGER " ++ numbers [bc.toNat, tag.toNat]
  | .blank => "BLANK"
  | .register status addr1 val1 addr2 val2 auto1 auto2 err =>
    "REGISTER " ++
      numbers [status.toNat, addr1.toNat, val1.toNat, addr2.toNat, val2.toNat, bit auto1, bit auto2, bit err]
  | .data sub0 sub1 => "DATA " ++ sub0.written ++ " ; " ++ sub1.written
  | .sym v => "SYM " ++ numbers [v.toNat]

end Sys2Proof
end

