-- ==== Sys2Proof/Tests/Slice0.lean ====
section
/-! SUPPORT. The model's own tests: the refusals of every well-formedness check, words and results written out from the
spec's vectors (`spec/95_test_vectors.md`, named V-…) or by hand from its layouts, one step on a small state, and for every
statement of Certificates/Slice0 that has hypotheses a state and operands that meet them (`witness_<statement>`). -/

open Sys2Proof Sys2Proof.Machine

namespace Sys2Proof.Tests

/-! ## Small states and terms -/

/-- The default configuration. -/
def c : Config := Config.rd53a

/-- A state in which an encode has just begun. -/
def writing : State := { State.reset with task := .encode .command 0 }

/-- A state in which a decode of `bs` has just begun. -/
def reading (ch : Channel) (bs : List Byte) : State :=
  { State.reset with task := .decode ch 0, input := ofBytes bs, inLen := bs.length }

/-- A state in which a symbol decode of `bs` has just begun. -/
def readingSyms (bs : List Byte) : State :=
  { State.reset with task := .unsyms, input := ofBytes bs, inLen := bs.length }

/-- An idle state with one call waiting. -/
def calling (x : Call) : State := { State.reset with calls := [x] }

/-- What a step gives when it gives a next state. -/
def nextOf : Host.Outcome State Fault Refusal → Option State
  | .next s => some s
  | _ => none

def h0 : Header := { trigId := 3, trigTag := 7, bcid := 0 }

def x0 : Hit := { ccol := 1, crow := 0, region := 10, tot0 := 0, tot1 := 0, tot2 := 9, tot3 := 0 }

def hitZero : Hit := { ccol := 0, crow := 0, region := 0, tot0 := 0, tot1 := 0, tot2 := 0, tot3 := 0 }

/-- The long WrReg of V-9 a and its bytes. -/
def long : Instr := .wrreg6 8 0 0x1111 0x2222 0x3333 0x4444 0x5555 0x6666

def longBytes : List Byte :=
  [0x66, 0x66, 0xA9, 0x6A, 0x6A, 0x74, 0x93, 0xA9, 0x74, 0x93, 0xA9, 0x72, 0x8D, 0x9A, 0xC9, 0x74, 0x93, 0xA9, 0x96, 0xB2,
   0x96, 0xC6, 0xAC, 0x8D]

/-! ## Well-formedness: each check refuses an ill-formed term -/

theorem test_wf_refuses_trigger_zero : (Instr.trigger 0 5).wf = false := by decide
theorem test_wf_refuses_sync_in_position_one : (Instr.data (.header h0) .syncFill).wf = false := by decide
theorem test_wf_takes_sync_in_position_zero : (Instr.data .syncFill (.hit x0)).wf = true := by decide
theorem test_seqWf_refuses_other_link : seqWf .frame [.ecr] = false := by decide
theorem test_seqWf_refuses_symbol : seqWf .command [.sym 3] = false := by decide
theorem test_seqWf_refuses_non_record : seqWf .command [.ecr, .trigger 0 1] = false := by decide
theorem test_symWf_refuses_repeat : ({ c with sym := c.sym.set 1 0x6A } : Config).symWf = false := by decide
theorem test_trigWf_refuses_repeat : ({ c with trig := c.trig.set 14 0x2B } : Config).trigWf = false := by decide
theorem test_auroraWf_refuses_blank : ({ c with aurErr := 0x1E } : Config).auroraWf = false := by decide
theorem test_discWf_refuses_zero : ({ c with hdrDiscWidth := 0 } : Config).discWf = false := by decide
theorem test_discWf_refuses_eight : ({ c with hdrDiscWidth := 8 } : Config).discWf = false := by decide
theorem test_orderWf_refuses_missing_parser : ({ c with frameProbeOrder := [.register, .blank] } : Config).orderWf = false := by
  decide
theorem test_frameWf_refuses_four : ({ c with frameLen := 4 } : Config).frameWf = false := by decide
theorem test_bytesSeparate_refuses_shared_byte : ({ c with idEcr := 0x6A5A } : Config).bytesSeparate = false := by decide
theorem test_bytesSeparate_refuses_shared_tables : ({ c with trig := c.trig.set 0 0x6A } : Config).bytesSeparate = false := by
  decide
theorem test_idsDistinct_refuses_equal_pairs : ({ c with idSync := 0x5A5A } : Config).idsDistinct = false := by decide
theorem test_defaults_wf : c.wf = true ∧ c.separate = true := by decide

/-! ## Decoding: words written out from the spec's encodings -/

theorem test_decode_ecr : decode c .command [0x5A, 0x5A] = .instr .ecr 2 := by decide
theorem test_decode_bcr : decode c .command [0x59, 0x59] = .instr .bcr 2 := by decide
theorem test_decode_noop : decode c .command [0x69, 0x69] = .instr .noop 2 := by decide
theorem test_decode_sync : decode c .command [0x41, 0x7E] = .instr .sync 2 := by decide
theorem test_decode_sync_swapped : decode c .command [0x7E, 0x41] = .undecodable := by decide
/-- V-5 d. -/
theorem test_decode_pulse : decode c .command [0x5C, 0x5C, 0xA6, 0x93] = .instr (.pulse 8 4) 4 := by decide
/-- V-6 d. -/
theorem test_decode_cal : decode c .command [0x63, 0x63, 0x8D, 0xB4, 0xB2, 0xA9] = .instr (.cal 3 0 5 42 1 17) 6 := by decide
/-- V-7 c. -/
theorem test_decode_rdreg : decode c .command [0x65, 0x65, 0x8D, 0x93, 0xAA, 0x6A] = .instr (.rdreg 3 137) 6 := by decide
/-- V-8 c. -/
theorem test_decode_wrreg :
    decode c .command [0x66, 0x66, 0x8D, 0x71, 0xC5, 0x74, 0xA9, 0xB1] = .instr (.wrreg 3 44 0x1234) 8 := by decide
theorem test_decode_wrreg6 : decode c .command longBytes = .instr long 24 := by decide
theorem test_decode_wrreg6_cut : decode c .command (longBytes.take 23) = .undecodable := by decide
/-- V-10 c. -/
theorem test_decode_trigger : decode c .command [0x3A, 0xAA] = .instr (.trigger 8 18) 2 := by decide
theorem test_decode_trigger_bad_tag : decode c .command [0x56, 0xFF] = .undecodable := by decide
theorem test_decode_blank : decode c .data [0x1E, 0, 0, 0, 0, 0, 0, 0] = .instr .blank 8 := by decide
/-- P-4 of the frame vectors: status, both addresses and both values cross byte boundaries. -/
theorem test_decode_register : decode c .data [0x99, 0x52, 0x24, 0x48, 0xD1, 0x2C, 0xBE, 0xEF] =
    .instr (.register 5 0x089 0x1234 0x12C 0xBEEF false true false) 8 := by decide
theorem test_decode_data : decode c .data [0x02, 0x33, 0x80, 0x00, 0x04, 0x0A, 0x00, 0x90] =
    .instr (.data (.header h0) (.hit x0)) 8 := by decide
theorem test_decode_data_sync : decode c .data [0x1E, 0, 0, 0, 0x02, 0x11, 0x00, 0x03] =
    .instr (.data .syncFill (.header { trigId := 1, trigTag := 2, bcid := 3 })) 8 := by decide
theorem test_decode_sym : decode c .symbol [0xAA] = .instr (.sym 18) 1 := by decide
theorem test_decode_sym_bad : decode c .symbol [0xAB] = .undecodable := by decide
theorem test_pad_bits_not_examined : unpackPulse c [0x5C, 0x5C, 0x6C, 0x6C] = .got (.pulse 0 0) 4 := by decide
theorem test_illegal_aurora_refused : unpackRegister c [0x1E, 0, 0, 0, 0, 0, 0, 1] = .fail .noMatch := by decide

/-! ## Encoding -/

theorem test_encode_cal : encode c (.cal 8 1 0 20 0 0) = [0x63, 0x63, 0xA9, 0x6C, 0x93, 0x6A] := by decide
theorem test_encode_rdreg : encode c (.rdreg 8 1) = [0x65, 0x65, 0xA6, 0x6A, 0x71, 0x6A] := by decide
theorem test_encode_wrreg6 : encode c long = longBytes := by decide
theorem test_encode_register_error_wins : encode c (.register 0 0 0 0 0 true true true) = [0xCC, 0, 0, 0, 0, 0, 0, 0] := by decide

/-! ## Words of the opcode table -/

theorem test_table_sync : decodeTableWord 16 0x417E = some .sync := by decide
theorem test_table_cal : decodeTableWord 16 0x6363 = some (.cal 0 0 0 0 0 0) := by decide
theorem test_table_trigger : decodeTableWord 16 0x3A00 = some (.trigger 8 0) := by decide
theorem test_table_register : decodeTableWord 64 0xD200000000000000 = some (.register 0 0 0 0 0 false false false) := by decide
theorem test_table_blank : decodeTableWord 64 0x1E00000000000000 = some .blank := by decide
theorem test_table_data : decodeTableWord 64 0x0200000002000000 =
    some (.data (.header { trigId := 0, trigTag := 0, bcid := 0 }) (.header { trigId := 0, trigTag := 0, bcid := 0 })) := by decide
theorem test_table_sym : decodeTableWord 8 0xD4 = some (.sym 31) := by decide

theorem test_withFetchWord_runs_pulse : nextOf (step (State.reset.withFetchWord 16 0x5C5C)) =
    nextOf (exec (.pulse 0 0) (State.reset.withFetchWord 16 0x5C5C)) := by decide
theorem test_withFetchWord_reads_blank :
    (nextOf (step (State.reset.withFetchWord 64 0x1E00000000000000))).map (fun t => (t.pos, t.out)) =
      some (8, [Instr.blank]) := by decide

/-! ## One step -/

theorem test_step_writes_trigger :
    (nextOf (step { writing with todo := [.trigger 5 7] })).map (fun t => (t.outBuf, t.off, t.todo)) =
      some ([(0, 0x35), (1, 0x8E)], 2, []) := by decide
theorem test_step_reads_pulse :
    (nextOf (step (reading .command [0x5C, 0x5C, 0x8D, 0xAA, 0x59]))).map (fun t => (t.pos, t.out, t.diag)) =
      some (4, [Instr.pulse 3 9], []) := by decide
theorem test_step_skips_one_byte :
    (nextOf (step (reading .command [0xFF, 0x59, 0x59]))).map (fun t => (t.pos, t.out, t.diag)) =
      some (1, [], [{ pos := 0, byte := 0xFF }]) := by decide
theorem test_step_rejects_other_link :
    (nextOf (step (calling (.encode .frame 0 [.ecr])))).map State.returns = some [Ret.rejected] := by decide
theorem test_step_bad_symbol_ends :
    (nextOf (step (readingSyms [0xAB, 0xAA]))).map State.returns = some [Ret.symbols none] := by decide
theorem test_step_symEnc_needs_no_buffer :
    (nextOf (step { calling (.symEnc 18) with cfg := { c with bufMax := some 0 } })).map State.returns =
      some [Ret.byte 0xAA] := by decide
theorem test_step_packs_at_once :
    (nextOf (step (calling (.pack (.pulse 3 9))))).map (fun t => (t.returns, t.task, t.off)) =
      some ([Ret.encoded [0x5C, 0x5C, 0x8D, 0xAA] 4], Task.idle, 0) := by decide
theorem test_exec_refuses_trigger_zero : (nextOf (exec (.trigger 0 1) writing)).isNone = true := by decide

/-! ## Flags, classes and notation -/

theorem test_aurora_encode_both : auroraEnc c true true false = 0xB4 := by decide
theorem test_aurora_decode_unknown : auroraDec c 0x00 = (false, false, true) := by decide
theorem test_classify_sync_pos0_only : subClassify c 0x1E000000 .pos0 = .isSync ∧ subClassify c 0x1E000000 .pos1 = .isHit := by
  decide
theorem test_classify_header_bounds : subClassify c 0x02000000 .pos1 = .isHeader ∧ subClassify c 0x03FFFFFF .pos1 = .isHeader ∧
    subClassify c 0x04000000 .pos1 = .isHit ∧ subClassify c 0x01FFFFFF .pos1 = .isHit := by decide
theorem test_pixel : hitPixel { hitZero with ccol := 49, crow := 23, region := 15 } 3 = (399, 191) := by decide
theorem test_notation : (Instr.trigger 5 7).written = "TRIGGER 5, 7" := by decide

/-! ## Witnesses of the hypotheses -/

theorem witness_IdentifierRecordsWriteTwoBytes : writing.task.decoding = false := by decide
theorem witness_PulseWritesFourBytes : writing.task.decoding = false := by decide
theorem witness_CalWritesSixBytes : writing.task.decoding = false := by decide
theorem witness_RdRegWritesSixBytes : writing.task.decoding = false := by decide
theorem witness_WrRegWritesEightBytes : writing.task.decoding = false := by decide
theorem witness_WrReg6WritesTwentyFourBytes : writing.task.decoding = false ∧ 0 < 22 ∧ 21 < 22 := by decide
theorem witness_TriggerWritesPatternAndTag : (1 : BitVec 4) ≠ 0 ∧ (15 : BitVec 4) ≠ 0 ∧ writing.task.decoding = false := by decide
theorem witness_BlankWritesEightBytes : writing.task.decoding = false := by decide
theorem witness_RegisterWritesEightBytes : writing.task.decoding = false := by decide
theorem witness_DataWritesTwoSubFrames : SubFrame.hit x0 ≠ .syncFill ∧ writing.task.decoding = false := by decide
theorem witness_SymbolWritesItsTableEntry : writing.task.decoding = false := by decide
theorem witness_DecodedRecordsAdvanceTheCursor :
    (Instr.trigger 1 0).wf = true ∧ (reading .command [0x2B, 0x6A]).task.decoding = true := by decide
theorem witness_WritingChangesOnlyItsBytes :
    writing.task.decoding = false ∧ (nextOf (exec (.pulse 3 9) { writing with off := 2 })).isSome = true ∧
      1 < 2 ∧ 2 + (encode c (.pulse 3 9)).length ≤ 6 ∧ 3 < (encode c (.pulse 3 9)).length := by decide
theorem witness_AcceptingChangesNoMemory :
    (reading .command [0x5A, 0x5A]).task.decoding = true ∧
      (nextOf (exec .ecr (reading .command [0x5A, 0x5A]))).isSome = true := by decide
theorem witness_StepRunsTheDecodedInstruction :
    (decode c Channel.command.link (window (reading .command [0x5A, 0x5A])) = .instr .ecr 2 ∧
      (reading .command [0x5A, 0x5A]).task = .decode .command 0 ∧
      (reading .command [0x5A, 0x5A]).pos < (reading .command [0x5A, 0x5A]).inLen) ∧
    (decode c .symbol (window (readingSyms [0xAA])) = .instr (.sym 18) 1 ∧
      (readingSyms [0xAA]).task = .unsyms ∧ (readingSyms [0xAA]).pos < (readingSyms [0xAA]).inLen) ∧
    ({ writing with todo := [.ecr, .bcr] } : State).task = .encode .command 0 ∧
    ({ writing with todo := [.ecr, .bcr] } : State).todo = .ecr :: [.bcr] ∧
    (calling (.pack .blank)).task = .idle ∧ (calling (.pack .blank)).calls = .pack .blank :: [] ∧
    admissible (calling (.pack .blank)) (.pack .blank) = true := by decide
/-- Both clauses: the Trigger is the last parser of the order; no parser takes `FF`. -/
theorem witness_CommandStepProbesInOrder :
    ((reading .command [0x2B, 0x6A]).inv = true ∧ (reading .command [0x2B, 0x6A]).task = .decode .command 0 ∧
      (reading .command [0x2B, 0x6A]).pos < (reading .command [0x2B, 0x6A]).inLen ∧
      c.cmdProbeOrder = [.cal, .ecr, .bcr, .pulse, .rdreg, .wrreg, .noop, .sync, .trigger] ∧
      c.cmdProbeOrder = [.cal, .ecr, .bcr, .pulse, .rdreg, .wrreg, .noop, .sync] ++ .trigger :: [] ∧
      ([CmdVariant.cal, .ecr, .bcr, .pulse, .rdreg, .wrreg, .noop, .sync].map fun u => unpackCommand c u [0x2B, 0x6A]) =
        List.replicate 8 (.fail .noMatch) ∧
      unpackCommand c .trigger [0x2B, 0x6A] = .got (.trigger 1 0) 2) ∧
    (reading .command [0xFF]).inv = true ∧
      (c.cmdProbeOrder.map fun u => unpackCommand c u [0xFF]) = List.replicate 9 (.fail .noMatch) := by decide
/-- Both clauses: a BlankFrame is found after the Register parser fails; seven bytes are no frame. -/
theorem witness_FrameStepProbesInOrder :
    ((reading .frame [0x1E, 0, 0, 0, 0, 0, 0, 0]).inv = true ∧
      (reading .frame [0x1E, 0, 0, 0, 0, 0, 0, 0]).task = .decode .frame 0 ∧
      (reading .frame [0x1E, 0, 0, 0, 0, 0, 0, 0]).pos < (reading .frame [0x1E, 0, 0, 0, 0, 0, 0, 0]).inLen ∧
      c.frameProbeOrder = [.register, .blank, .data] ∧ c.frameProbeOrder = [.register] ++ .blank :: [.data] ∧
      unpackFrame c .register [0x1E, 0, 0, 0, 0, 0, 0, 0] = .fail .noMatch ∧
      unpackFrame c .blank [0x1E, 0, 0, 0, 0, 0, 0, 0] = .got .blank 8) ∧
    (reading .frame [0x1E, 0, 0, 0, 0, 0, 0]).inv = true ∧
      (c.frameProbeOrder.map fun u => unpackFrame c u [0x1E, 0, 0, 0, 0, 0, 0]) =
        List.replicate 3 (.fail .truncated) := by decide
theorem witness_DecodeStepMovesTheCursorForward :
    (reading .command [0xFF, 0x59, 0x59]).inv = true ∧
      (reading .command [0xFF, 0x59, 0x59]).task = .decode .command 0 ∧
      (reading .command [0xFF, 0x59, 0x59]).pos < (reading .command [0xFF, 0x59, 0x59]).inLen ∧
      (nextOf (step (reading .command [0xFF, 0x59, 0x59]))).isSome = true ∧
      (nextOf (step (reading .command [0x59, 0x59]))).isSome = true := by decide
/-- The four clauses: a wrong identifier, one symbol short, a byte that is no symbol, two symbols (V-5 c). -/
theorem witness_PulseParserFollowsItsRule :
    (¬ (([0x5C] : List Byte)[0]? = some (c.idPulse.extractLsb' 0 8) ∧ ([0x5C] : List Byte)[1]? = some (c.idPulse.extractLsb' 8 8))) ∧
    ([0x6A] : List Byte).length < 2 ∧
    (2 ≤ ([0x6A, 0] : List Byte).length ∧ unsyms c 2 [0x6A, 0] = none) ∧
    unsyms c 2 [0x8D, 0xAA] = some (cutGroups 2 (0b00110_10010#10)) := by decide
theorem witness_CalParserFollowsItsRule :
    (¬ (([0x63] : List Byte)[0]? = some (c.idCal.extractLsb' 0 8) ∧ ([0x63] : List Byte)[1]? = some (c.idCal.extractLsb' 8 8))) ∧
    ([0x6A, 0x6A, 0x6A] : List Byte).length < 4 ∧
    (4 ≤ ([0x6A, 0x6A, 0x6A, 0x6B] : List Byte).length ∧ unsyms c 4 [0x6A, 0x6A, 0x6A, 0x6B] = none) ∧
    unsyms c 4 [0x8D, 0xB4, 0xB2, 0xA9] = some (cutGroups 4 (0b00110_10110_10101_10001#20)) := by decide
theorem witness_RdRegParserFollowsItsRule :
    (¬ (([0x65] : List Byte)[0]? = some (c.idRdReg.extractLsb' 0 8) ∧ ([0x65] : List Byte)[1]? = some (c.idRdReg.extractLsb' 8 8))) ∧
    ([0x6A, 0x6A, 0x6A] : List Byte).length < 4 ∧
    (4 ≤ ([0x8D, 0x93, 0xAA, 0] : List Byte).length ∧ unsyms c 4 [0x8D, 0x93, 0xAA, 0] = none) ∧
    unsyms c 4 [0x8D, 0x93, 0xAA, 0x6A] = some (cutGroups 4 (0b00110_01000_10010_00000#20)) := by decide
/-- The eight clauses, each at the shortest bytes it admits, the fourth also at the longest. -/
theorem witness_WrRegParserFollowsItsRule :
    (¬ (([0x66] : List Byte)[0]? = some (c.idWrReg.extractLsb' 0 8) ∧ ([0x66] : List Byte)[1]? = some (c.idWrReg.extractLsb' 8 8))) ∧
    (List.replicate 5 (0x6A : Byte)).length < 6 ∧
    (5 ≤ (List.replicate 5 (0x6A : Byte)).length ∧ symDec c 0x00 = none) ∧
    ((List.replicate 20 (0x6A : Byte)).length < 21 ∧ symDec c 0x6C = some 1 ∧ (1#5).getLsbD 0 = true) ∧
    (symDec c 0x6A = some 0 ∧ (0#5).getLsbD 0 = false ∧ unsyms c 6 [0x6A, 0x6A, 0x6A, 0x6A, 0x6A, 0] = none) ∧
    (21 ≤ (List.replicate 21 (0 : Byte)).length ∧ unsyms c 22 (0x6C :: List.replicate 21 0) = none) ∧
    ((0b00110_00010_11000_00100_10001_10100#30).getLsbD 25 = false ∧
      unsyms c 6 [0x8D, 0x71, 0xC5, 0x74, 0xA9, 0xB1] = some (cutGroups 6 (0b00110_00010_11000_00100_10001_10100#30))) ∧
    ((8#4 ++ 1#1 ++ 0#9 ++ 0x111122223333444455556666#96 : BitVec 110).getLsbD 105 = true ∧
      unsyms c 22 (longBytes.drop 2) =
        some (cutGroups 22 (8#4 ++ 1#1 ++ 0#9 ++ 0x111122223333444455556666#96 : BitVec 110))) := by decide
/-- A byte that is no pattern; the first and the last pattern. -/
theorem witness_TriggerParserFollowsItsRule :
    c.trigWf = true ∧ (0x6A : Byte) ∉ c.trig.toList ∧
    ((1 : BitVec 4) ≠ 0 ∧ c.trig.toList[(1 : BitVec 4).toNat - 1]? = some 0x2B) ∧
    ((15 : BitVec 4) ≠ 0 ∧ c.trig.toList[(15 : BitVec 4).toNat - 1]? = some 0x56) := by decide
theorem witness_BlankParserFollowsItsRule : c.frameLen = 8 := by decide
theorem witness_RegisterParserFollowsItsRule : c.auroraWf = true ∧ c.frameLen = 8 ∧ (List.replicate 7 (0 : Byte)).length < 8 := by decide
theorem witness_DataParserFollowsItsRule : c.frameLen = 8 ∧ (List.replicate 7 (0 : Byte)).length < 8 := by decide
theorem witness_AuroraDecodeInvertsEncode :
    c.auroraWf = true ∧ auroraLegal c 0x1E = false ∧ auroraLegal c 0xCC = true := by decide
theorem witness_SubFrameTypedByLeadingBits :
    c.discWf = true ∧ ({ c with hdrDiscWidth := 1 } : Config).discWf = true := by decide
theorem witness_FrameClassIsWhatTheChannelFinds :
    c.frameProbeOrder = [.register, .blank, .data] ∧ c.frameLen = 8 ∧ 8 ≤ (List.replicate 8 (0 : Byte)).length := by decide
/-- The three widths, each at the border of its class, and the one sync-like Hit. -/
theorem witness_HeaderLikeHitsByWidth :
    c.hdrId = 1 ∧ c.blankCode = 0x1E ∧ c.hdrDiscWidth = 7 ∧
    headerLike c { hitZero with crow := 32 } = true ∧ headerLike c { hitZero with crow := 31 } = false ∧
    headerLike { c with hdrDiscWidth := 4 } { hitZero with ccol := 3 } = true ∧
    headerLike { c with hdrDiscWidth := 4 } { hitZero with ccol := 4 } = false ∧
    headerLike { c with hdrDiscWidth := 2 } { hitZero with ccol := 15 } = true ∧
    headerLike { c with hdrDiscWidth := 2 } { hitZero with ccol := 16 } = false ∧
    syncLike c { hitZero with ccol := 7, crow := 32 } = true := by decide
/-- The two records with the bytes of a BlankFrame: the blank-like one is stable sub-frame by sub-frame, the other is not. -/
theorem test_records_with_blank_bytes :
    encode c (.data .syncFill (.hit hitZero)) = encode c .blank ∧
      encode c (.data (.hit { hitZero with ccol := 7, crow := 32 }) (.hit hitZero)) = encode c .blank ∧
      blankLike .syncFill (.hit hitZero) = true ∧ blankLike (.hit { hitZero with ccol := 7, crow := 32 }) (.hit hitZero) = false ∧
      subStable c .pos0 .syncFill = true ∧ subStable c .pos0 (.hit { hitZero with ccol := 7, crow := 32 }) = false := by decide
/-- Each collision of a Header is met under some well-formed configuration (log 34). -/
theorem test_headerCollides_elsewhere :
    (let d : Config := { c with hdrId := 0 }
     d.wf = true ∧ headerCollides d .syncFill (.header { trigId := 0, trigTag := 0, bcid := 0 }) = true ∧
       encode d (.data .syncFill (.header { trigId := 0, trigTag := 0, bcid := 0 })) = encode d .blank) ∧
    (let d : Config := { c with hdrId := 0b1011010 }
     d.wf = true ∧ headerCollides d (.header { trigId := 0, trigTag := 0, bcid := 0 }) (.hit x0) = true) ∧
    (let d : Config := { c with hdrId := 0b0001111 }
     d.wf = true ∧ headerReadAsSync d (.header { trigId := 0, trigTag := 0, bcid := 0 }) = true) := by decide
theorem witness_SymbolCodecIsABijection : c.symWf = true ∧ symDec c 0xD4 = some 31 := by decide
theorem witness_CommandRecordsRoundTrip :
    c.wf = true ∧ long.wf = true ∧ commandVariant long = some .wrreg := by decide
theorem witness_FrameRecordsRoundTrip :
    c.wf = true ∧ SubFrame.hit x0 ≠ .syncFill ∧ subStable c .pos0 (.header h0) = true ∧
      headerReadAsSync c (.header h0) = false ∧ subStable c .pos1 (.hit x0) = true := by
  decide
theorem witness_CommandDecoderReadsTheEncoder :
    c.wf = true ∧ c.separate = true ∧ long.wf = true ∧ long.link = .command := by decide
theorem witness_ProbeOrderChangesNoResult :
    c.wf = true ∧ c.separate = true ∧ cmdOrderOfR202.reverse.isPerm cmdOrderOfR202 = true := by decide
theorem witness_CommandStreamsRoundTrip :
    c.wf = true ∧ c.separate = true ∧ seqWf .command [.ecr, long, .trigger 1 0] = true := by decide
/-- A stable record, and one that is not (a Hit that is header-like). -/
theorem witness_FrameStreamsRoundTripIffStable :
    c.wf = true ∧ c.frameProbeOrder = [.register, .blank, .data] ∧
      seqWf .frame [.blank, .data (.header h0) (.hit { hitZero with crow := 63 })] = true ∧
      channelReadsBack c .blank = true ∧ channelReadsBack c (.data (.header h0) (.hit { hitZero with crow := 63 })) = false := by
  decide
theorem witness_FrameDecodeCountsFrames : c.wf = true := by decide
theorem witness_DecodeAccountsForEveryByte :
    c.frameLen = 8 ∧ (decodeStream c .command [0xFF, 0x59, 0x59]).2 = [{ pos := 0, byte := 0xFF }] := by decide
/-- Cut after 0 bytes and one byte short. -/
theorem witness_TruncatedCommandIsSkippedWhole :
    c.wf = true ∧ c.separate = true ∧ long.wf = true ∧ long.link = .command ∧ 0 < wireLen c long ∧ 23 < wireLen c long := by decide
theorem witness_DecodeCallRunsTheStream :
    (calling (.decode .command 3 [0xFF, 0x59, 0x59])).inv = true ∧
      (calling (.decode .command 3 [0xFF, 0x59, 0x59])).task = .idle ∧
      (calling (.decode .command 3 [0xFF, 0x59, 0x59])).calls = .decode .command 3 [0xFF, 0x59, 0x59] :: [] ∧
      decodable c .command [0xFF, 0x59, 0x59] = true := by decide
theorem witness_EncodeCallRunsTheStream :
    (calling (.encode .command 3 [.ecr, .trigger 1 0])).inv = true ∧
      (calling (.encode .command 3 [.ecr, .trigger 1 0])).task = .idle ∧
      (calling (.encode .command 3 [.ecr, .trigger 1 0])).calls = .encode .command 3 [.ecr, .trigger 1 0] :: [] ∧
      encodable c .command [.ecr, .trigger 1 0] = true := by decide
/-- The six clauses: a pack that just fits a bound, both ends of the symbol table under a bound of 0 bytes, a byte that is
no symbol, a parser at the end of its buffer. -/
theorem witness_SingleStepCallsAnswerAtOnce :
    (let s : State := { calling (.pack (.trigger 1 0)) with cfg := { c with bufMax := some 2 } }
     s.inv = true ∧ s.task = .idle ∧ (Instr.trigger 1 0).wf = true ∧ (Instr.trigger 1 0).link ≠ .symbol ∧
       fits s.cfg.bufMax (wireLen s.cfg (.trigger 1 0)) = true) ∧
    ({ calling (.symEnc 31) with cfg := { c with bufMax := some 0 } } : State).inv = true ∧
    (({ calling (.symDec 0x6A) with cfg := { c with bufMax := some 0 } } : State).inv = true ∧
      c.sym.toList[(0 : Group).toNat]? = some 0x6A ∧ c.sym.toList[(31 : Group).toNat]? = some 0xD4) ∧
    ((calling (.symDec 0xAB)).inv = true ∧ (0xAB : Byte) ∉ c.sym.toList) ∧
    (calling (.unpackCommand .ecr [0x5A, 0x5A] 2)).inv = true ∧ (calling (.unpackFrame .data [] 0)).inv = true ∧
      2 ≤ ([0x5A, 0x5A] : List Byte).length ∧ fits c.bufMax 2 = true := by decide
/-- Some symbols, and none at the end of the buffer. -/
theorem witness_UnsymsCallDecodesOrFailsWhole :
    (calling (.unsyms [0x00, 0x8D, 0xAA] 1 2)).inv = true ∧ (calling (.unsyms [0x00, 0x8D, 0xAA] 1 2)).task = .idle ∧
      (calling (.unsyms [0x00, 0x8D, 0xAA] 3 0)).inv = true ∧ 1 + 2 ≤ ([0x00, 0x8D, 0xAA] : List Byte).length ∧
      3 + 0 ≤ ([0x00, 0x8D, 0xAA] : List Byte).length ∧ c.bufMax = none := by decide
theorem witness_RejectedCallChangesNothing :
    (calling (.pack (.trigger 0 1))).task = .idle ∧
      admissible (calling (.pack (.trigger 0 1))) (.pack (.trigger 0 1)) = false := by decide
/-- Either capacity exceeded by one. -/
theorem witness_EncodeBeyondCapacityIsRefused :
    (({ calling (.encode .command 0 [.pulse 3 9]) with cfg := { c with bufMax := some 3 } } : State).task = .idle ∧
      ({ c with bufMax := some 3 } : Config).bufMax = some 3 ∧ 3 < totalLen c [.pulse 3 9]) ∧
      ({ c with seqMax := some 1 } : Config).seqMax = some 1 ∧ 1 < [Instr.ecr, .bcr].length := by decide
theorem witness_ClearAndGetFollowTheirRule :
    (calling (.clear .frame 2)).inv = true ∧ (calling (.getBytes .frame 2)).inv = true ∧
      (calling (.getLength .frame 2)).inv = true ∧ (calling (.clear .frame 2)).task = .idle ∧
      (calling (.clear .frame 2)).calls = .clear .frame 2 :: [] := by decide
theorem witness_OtherInstancesAreUntouched :
    (nextOf (step (calling (.clear .frame 2)))).isSome = true ∧
      (calling (.clear .frame 2)).task ≠ .encode .frame 1 ∧ (calling (.clear .frame 2)).task ≠ .decode .frame 1 ∧
      (∀ seq, (calling (.clear .frame 2)).calls.head? ≠ some (.encode .frame 1 seq)) ∧
      (calling (.clear .frame 2)).calls.head? ≠ some (.clear .frame 1) :=
  ⟨by decide, by decide, by decide, nofun, by decide⟩
theorem witness_StepKeepsTheInvariant :
    (reading .command [0x5A, 0x5A]).inv = true ∧ (nextOf (step (reading .command [0x5A, 0x5A]))).isSome = true := by decide
theorem witness_NoOperationFaultsOrSticks : (reading .frame [0x1E]).inv = true := by decide
theorem witness_StepKeepsTheConfiguration : (nextOf (step (reading .frame [0x1E]))).isSome = true := by decide
theorem witness_DecodeForgetsHistory :
    (calling (.decode .command 3 [0x59, 0x59])).inv = true ∧
      ({ calling (.decode .command 5 [0x59, 0x59]) with returns := [.done] } : State).inv = true ∧
      (calling (.decode .command 3 [0x59, 0x59])).cfg =
        ({ calling (.decode .command 5 [0x59, 0x59]) with returns := [.done] } : State).cfg ∧
      decodable c .command [0x59, 0x59] = true := by decide

end Sys2Proof.Tests
end

/-! The bijection law of the symbol codec (R142). The two inverse laws are those of the codec layer; what is added is the
count of the bytes that are no symbol, by splitting the list of all bytes along a table without repetitions. -/

namespace Sys2Proof

/-! ## Counting bytes outside a table -/

/-- The 256 bytes in order. -/
def allBytes : List Byte := (List.range 256).map (BitVec.ofNat 8)

theorem mem_allBytes (b : Byte) : b ∈ allBytes :=
  List.mem_map.2 ⟨b.toNat, List.mem_range.2 b.isLt, by simp⟩

theorem length_allBytes : allBytes.length = 256 := by simp [allBytes]

theorem nodup_allBytes : allBytes.Nodup := by
  refine List.Nodup.map_on (fun m hm n hn h => ?_) List.nodup_range
  have hmod : m % 256 = n % 256 := by simpa using congrArg BitVec.toNat h
  rwa [Nat.mod_eq_of_lt (List.mem_range.1 hm), Nat.mod_eq_of_lt (List.mem_range.1 hn)] at hmod

/-- Both lists are without repetitions and hold the same bytes. -/
theorem allBytes_filter_mem_perm (xs : List Byte) (hn : xs.Nodup) : (allBytes.filter (· ∈ xs)).Perm xs :=
  (List.perm_ext_iff_of_nodup (nodup_allBytes.filter _) hn).2 fun b => by simp [mem_allBytes]

theorem length_allBytes_filter_notMem (xs : List Byte) (hn : xs.Nodup) :
    (allBytes.filter (· ∉ xs)).length = 256 - xs.length := by
  have hsplit := List.length_eq_length_filter_add (l := allBytes) (· ∈ xs)
  rw [length_allBytes, (allBytes_filter_mem_perm xs hn).length_eq] at hsplit
  simp only [← decide_not] at hsplit
  omega

/-! ## The symbol codec -/

theorem symDec_isNone (c : Config) (b : Byte) : (symDec c b).isNone = decide (b ∉ c.sym.toList) := by
  rw [Bool.eq_iff_iff, Option.isNone_iff_eq_none, symDec_none_iff, decide_eq_true_iff]

/-- The count of R142: a table of 32 distinct symbols leaves 224 bytes that decode to nothing. -/
theorem length_filter_symDec_isNone (c : Config) (h : c.symWf = true) :
    ((List.range 256).filter fun n => (symDec c (BitVec.ofNat 8 n)).isNone).length = 224 := by
  have hn : c.sym.toList.Nodup := by simpa [Config.symWf] using h
  calc ((List.range 256).filter fun n => (symDec c (BitVec.ofNat 8 n)).isNone).length
      = (allBytes.filter fun b => (symDec c b).isNone).length := by
        rw [allBytes, List.filter_map, List.length_map]; rfl
    _ = (allBytes.filter (· ∉ c.sym.toList)).length := by simp only [symDec_isNone]
    _ = 256 - c.sym.toList.length := length_allBytes_filter_notMem _ hn
    _ = 224 := by rw [Vector.length_toList]

/-- Settles O38: the inverse laws of the codec, and the split of all bytes along the 32 distinct symbols. -/
theorem symbolCodecIsABijection : Obligations.SymbolCodecIsABijection := fun c h =>
  ⟨symDec_symEnc c h, symEnc_of_symDec c, symDec_none_iff c, length_filter_symDec_isNone c h⟩

end Sys2Proof

/-! The command packers byte by byte (`41_command_pack.md` R151 to R157, R159): which groups the payloads are cut into, which
bytes the encoder makes of them, and that outside a decode a record only writes those bytes.

A list of groups is a payload's cut as soon as it spells the payload's number (`cutGroups_eq_of_joinNat`), so where the fields
lie across the group borders is arithmetic on the fields' numbers. -/

namespace Sys2Proof

/-! ## The groups of a payload -/

/-- A number is spelled in one way: what two equally long lists spell, each after a start value, determines the start
values and the lists. -/
theorem joinNat_inj (xs ys : List Group) (a b : Nat) (hl : xs.length = ys.length) (h : joinNat xs a = joinNat ys b) :
    a = b ∧ xs = ys := by
  induction xs generalizing ys a b with
  | nil =>
    cases ys with
    | nil => exact ⟨h, rfl⟩
    | cons => cases hl
  | cons v xs ih =>
    cases ys with
    | nil => cases hl
    | cons w ys =>
      obtain ⟨hstart, rfl⟩ := ih ys _ _ (Nat.succ.inj hl) h
      have hv := v.isLt
      have hw := w.isLt
      obtain rfl : v = w := BitVec.eq_of_toNat_eq (by omega)
      exact ⟨by omega, rfl⟩

theorem cutGroups_eq_of_joinNat {k : Nat} {p : BitVec (5 * k)} (gs : List Group) (hl : gs.length = k)
    (h : joinNat gs 0 = p.toNat) : cutGroups k p = gs :=
  (joinNat_inj _ _ 0 0 (by rw [cutGroups_length, hl]) (by rw [joinNat_cutGroups, h])).2

/-- Concatenation as arithmetic, in the form `omega` reads once the widths are numerals. -/
theorem toNat_append_eq_add {m n : Nat} (x : BitVec m) (y : BitVec n) :
    (x ++ y).toNat = 2 ^ n * x.toNat + y.toNat := by
  rw [BitVec.toNat_append, ← Nat.shiftLeft_add_eq_or_of_lt y.isLt, Nat.shiftLeft_eq, Nat.mul_comm]

theorem cutGroups_payloadPulse (chipId length : BitVec 4) :
    cutGroups 2 (payloadPulse chipId length) = [chipId ++ 0#1, length ++ 0#1] := by
  refine cutGroups_eq_of_joinNat _ rfl ?_
  simp only [joinNat, payloadPulse, toNat_append_eq_add]
  omega

/-- `edgeWidth` lies across a group border: its two high bits end the second group, its four low bits begin the third. -/
theorem cutGroups_payloadCal (chipId : BitVec 4) (edgeMode : BitVec 1) (edgeDelay : BitVec 3) (edgeWidth : BitVec 6)
    (auxMode : BitVec 1) (auxDelay : BitVec 5) :
    cutGroups 4 (payloadCal chipId edgeMode edgeDelay edgeWidth auxMode auxDelay) =
      [chipId ++ edgeMode, edgeDelay ++ edgeWidth.extractLsb' 4 2, edgeWidth.extractLsb' 0 4 ++ auxMode, auxDelay] := by
  refine cutGroups_eq_of_joinNat _ rfl ?_
  simp only [joinNat, payloadCal, toNat_append_eq_add, BitVec.extractLsb'_toNat, Nat.shiftRight_eq_div_pow]
  omega

/-- `address` fills the second group and begins the third; its six pad bits end the third group and make the fourth. -/
theorem cutGroups_payloadRdReg (chipId : BitVec 4) (address : BitVec 9) :
    cutGroups 4 (payloadRdReg chipId address) =
      [chipId ++ 0#1, address.extractLsb' 4 5, address.extractLsb' 0 4 ++ 0#1, 0#5] := by
  refine cutGroups_eq_of_joinNat _ rfl ?_
  simp only [joinNat, payloadRdReg, toNat_append_eq_add, BitVec.extractLsb'_toNat, Nat.shiftRight_eq_div_pow,
    BitVec.toNat_ofNat]
  omega

/-! ## The bytes of a record -/

/-- The identifier low byte first (R64), then the symbols of the groups (R93). -/
theorem packPayload_of_cutGroups (c : Config) (id : BitVec 16) {k : Nat} {p : BitVec (5 * k)} {gs : List Group}
    (h : cutGroups k p = gs) :
    packPayload c id k p = id.extractLsb' 0 8 :: id.extractLsb' 8 8 :: gs.map (symEnc c) := by
  rw [packPayload, h, idLE]

theorem encode_pulse (c : Config) (chipId length : BitVec 4) :
    encode c (.pulse chipId length) =
      [c.idPulse.extractLsb' 0 8, c.idPulse.extractLsb' 8 8, symEnc c (chipId ++ 0#1), symEnc c (length ++ 0#1)] :=
  packPayload_of_cutGroups c c.idPulse (cutGroups_payloadPulse chipId length)

theorem encode_cal (c : Config) (chipId : BitVec 4) (edgeMode : BitVec 1) (edgeDelay : BitVec 3) (edgeWidth : BitVec 6)
    (auxMode : BitVec 1) (auxDelay : BitVec 5) :
    encode c (.cal chipId edgeMode edgeDelay edgeWidth auxMode auxDelay) =
      [c.idCal.extractLsb' 0 8, c.idCal.extractLsb' 8 8, symEnc c (chipId ++ edgeMode),
       symEnc c (edgeDelay ++ edgeWidth.extractLsb' 4 2), symEnc c (edgeWidth.extractLsb' 0 4 ++ auxMode),
       symEnc c auxDelay] :=
  packPayload_of_cutGroups c c.idCal (cutGroups_payloadCal chipId edgeMode edgeDelay edgeWidth auxMode auxDelay)

theorem encode_rdreg (c : Config) (chipId : BitVec 4) (address : BitVec 9) :
    encode c (.rdreg chipId address) =
      [c.idRdReg.extractLsb' 0 8, c.idRdReg.extractLsb' 8 8, symEnc c (chipId ++ 0#1),
       symEnc c (address.extractLsb' 4 5), symEnc c (address.extractLsb' 0 4 ++ 0#1), symEnc c 0] :=
  packPayload_of_cutGroups c c.idRdReg (cutGroups_payloadRdReg chipId address)

theorem encode_trigger (c : Config) (bc : BitVec 4) (tag : Group) (pattern : Byte) (h : trigOf c bc = some pattern) :
    encode c (.trigger bc tag) = [pattern, symEnc c tag] := by
  simp only [encode, packTrigger, h, Option.map_some, Option.getD_some]

end Sys2Proof

namespace Sys2Proof.Machine

/-! ## Writing a record -/

/-- Outside a decode a record does nothing but write its encoding at the offset (R150, R200). -/
theorem exec_writing {i : Instr} {s : State} {bs : List Byte} (hi : i.wf = true) (hs : s.task.decoding = false)
    (hb : encode s.cfg i = bs) : exec i s = .next (emit bs s) := by
  rw [exec_of_wf i s hi, perform_writing _ _ _ _ hs, hb]

/-- Settles O4: the record's four bytes are those of `encode_pulse`. -/
theorem pulseWritesFourBytes : Obligations.PulseWritesFourBytes := fun s chipId length hs =>
  exec_writing rfl hs (encode_pulse s.cfg chipId length)

/-- Settles O5: the record's six bytes are those of `encode_cal`. -/
theorem calWritesSixBytes : Obligations.CalWritesSixBytes :=
  fun s chipId edgeMode edgeDelay edgeWidth auxMode auxDelay hs =>
    exec_writing rfl hs (encode_cal s.cfg chipId edgeMode edgeDelay edgeWidth auxMode auxDelay)

/-- Settles O6: the record's six bytes are those of `encode_rdreg`. -/
theorem rdRegWritesSixBytes : Obligations.RdRegWritesSixBytes := fun s chipId address hs =>
  exec_writing rfl hs (encode_rdreg s.cfg chipId address)

/-- Settles O9: a bitmap that is not 0 has a pattern in the table, and the record's bytes are those of `encode_trigger`. -/
theorem triggerWritesPatternAndTag : Obligations.TriggerWritesPatternAndTag := fun s bc tag hbc hs => by
  obtain ⟨pattern, htrig, hentry⟩ := trigOf_some s.cfg bc hbc
  have hwf : (Instr.trigger bc tag).wf = true := bne_iff_ne.2 hbc
  exact ⟨pattern, hentry, exec_writing hwf hs (encode_trigger s.cfg bc tag pattern htrig)⟩

/-- Settles O3: each of the four records has no field, so its encoding is the two identifier bytes as they stand. -/
theorem identifierRecordsWriteTwoBytes : Obligations.IdentifierRecordsWriteTwoBytes := fun _ hs =>
  ⟨exec_writing rfl hs rfl, exec_writing rfl hs rfl, exec_writing rfl hs rfl, exec_writing rfl hs rfl⟩

end Sys2Proof.Machine

/-! The command parsers on the bytes they are given (`42_command_unpack.md` R172 to R180).

Four parsers check an identifier and nothing else (`unpackPlain`); three more read a payload of a fixed number of symbols
(`unpackPayload`) and differ in the identifier, the number and the record made of the payload. The rules are proved once of
these two shapes. WrReg picks one of two payloads by its mode bit, and Trigger has no identifier. -/

namespace Sys2Proof

/-! ## Identifiers -/

theorem afterId_none_iff (p : Byte × Byte) (bs : List Byte) :
    afterId p bs = none ↔ ¬ (bs[0]? = some p.1 ∧ bs[1]? = some p.2) := by
  match bs with
  | [] => simp [afterId]
  | [_] => simp [afterId]
  | _ :: _ :: _ => simp [afterId]

/-- The shape of the parsers that check the identifier and nothing else (R172 to R175). -/
def unpackPlain (id : Byte × Byte) (rec : Instr) (bs : List Byte) : Parse :=
  match afterId id bs with
  | none => .fail .noMatch
  | some _ => .got rec 2

theorem unpackPlain_eq (id : Byte × Byte) (rec : Instr) (bs : List Byte) :
    unpackPlain id rec bs = if bs[0]? = some id.1 ∧ bs[1]? = some id.2 then .got rec 2 else .fail .noMatch := by
  unfold unpackPlain
  split
  next hnone => rw [if_neg ((afterId_none_iff id bs).1 hnone)]
  next rest hsome =>
    obtain rfl := afterId_some id bs rest hsome
    exact (if_pos ⟨rfl, rfl⟩).symm

theorem unpackCommand_ecr (c : Config) : unpackCommand c .ecr = unpackPlain (idLE c.idEcr) .ecr := rfl
theorem unpackCommand_bcr (c : Config) : unpackCommand c .bcr = unpackPlain (idLE c.idBcr) .bcr := rfl
theorem unpackCommand_noop (c : Config) : unpackCommand c .noop = unpackPlain (idLE c.idNoop) .noop := rfl
theorem unpackCommand_sync (c : Config) : unpackCommand c .sync = unpackPlain (idBE c.idSync) .sync := rfl

/-- Settles O22: the four parsers have one shape; Sync alone compares the high byte first. -/
theorem identifierRecordsParseTheirBytes : Obligations.IdentifierRecordsParseTheirBytes := fun c bs => by
  rw [unpackCommand_ecr, unpackCommand_bcr, unpackCommand_noop, unpackCommand_sync]
  exact ⟨unpackPlain_eq (idLE c.idEcr) .ecr bs, unpackPlain_eq (idLE c.idBcr) .bcr bs,
    unpackPlain_eq (idLE c.idNoop) .noop bs, unpackPlain_eq (idBE c.idSync) .sync bs⟩

/-! ## Parsers of one payload -/

/-- The shape of the parsers that read `k` symbols after the identifier: identifier, length, symbols, in that order, then
the record made of the payload vector (R170, R176 to R178). -/
def unpackPayload (c : Config) (id : BitVec 16) (k : Nat) (record : BitVec (5 * k) → Instr) (bs : List Byte) : Parse :=
  match afterId (idLE id) bs with
  | none => .fail .noMatch
  | some rest =>
    if bs.length < k + 2 then .fail .truncated
    else
      match unsyms c k rest with
      | none => .fail .badSymbol
      | some gs => .got (record (joinGroups (5 * k) gs)) (k + 2)

section payload

variable (c : Config) (id : BitVec 16) (k : Nat) (record : BitVec (5 * k) → Instr)

theorem unpackPayload_noMatch (bs : List Byte)
    (h : ¬ (bs[0]? = some (id.extractLsb' 0 8) ∧ bs[1]? = some (id.extractLsb' 8 8))) :
    unpackPayload c id k record bs = .fail .noMatch := by
  simp only [unpackPayload, (afterId_none_iff (idLE id) bs).2 h]

theorem unpackPayload_truncated (rest : List Byte) (h : rest.length < k) :
    unpackPayload c id k record ((idLE id).1 :: (idLE id).2 :: rest) = .fail .truncated := by
  simp only [unpackPayload, afterId_cons, List.length_cons]
  exact if_pos (by omega)

theorem unpackPayload_badSymbol (rest : List Byte) (h : k ≤ rest.length) (hs : unsyms c k rest = none) :
    unpackPayload c id k record ((idLE id).1 :: (idLE id).2 :: rest) = .fail .badSymbol := by
  simp only [unpackPayload, afterId_cons, List.length_cons, hs]
  exact if_neg (by omega)

theorem unpackPayload_got (rest : List Byte) (p : BitVec (5 * k)) (h : k ≤ rest.length)
    (hs : unsyms c k rest = some (cutGroups k p)) :
    unpackPayload c id k record ((idLE id).1 :: (idLE id).2 :: rest) = .got (record p) (k + 2) := by
  simp only [unpackPayload, afterId_cons, List.length_cons, hs, joinGroups_cutGroups]
  exact if_neg (by omega)

/-- The four cases together, the identifier's bytes written as the spec does (R64). -/
theorem unpackPayload_followsItsRule :
    (∀ bs : List Byte, ¬ (bs[0]? = some (id.extractLsb' 0 8) ∧ bs[1]? = some (id.extractLsb' 8 8)) →
      unpackPayload c id k record bs = .fail .noMatch) ∧
    (∀ rest : List Byte, rest.length < k →
      unpackPayload c id k record (id.extractLsb' 0 8 :: id.extractLsb' 8 8 :: rest) = .fail .truncated) ∧
    (∀ rest : List Byte, k ≤ rest.length → unsyms c k rest = none →
      unpackPayload c id k record (id.extractLsb' 0 8 :: id.extractLsb' 8 8 :: rest) = .fail .badSymbol) ∧
    ∀ (rest : List Byte) (p : BitVec (5 * k)), k ≤ rest.length → unsyms c k rest = some (cutGroups k p) →
      unpackPayload c id k record (id.extractLsb' 0 8 :: id.extractLsb' 8 8 :: rest) = .got (record p) (k + 2) :=
  ⟨unpackPayload_noMatch c id k record, unpackPayload_truncated c id k record, unpackPayload_badSymbol c id k record,
    unpackPayload_got c id k record⟩

end payload

/-- The Pulse a payload spells (R94). -/
def pulseOfPayload (p : BitVec (5 * 2)) : Instr := .pulse (p.extractLsb' 6 4) (p.extractLsb' 1 4)

/-- The Cal a payload spells (R95). -/
def calOfPayload (p : BitVec (5 * 4)) : Instr :=
  .cal (p.extractLsb' 16 4) (p.extractLsb' 15 1) (p.extractLsb' 12 3) (p.extractLsb' 6 6) (p.extractLsb' 5 1)
    (p.extractLsb' 0 5)

/-- The RdReg a payload spells (R96). -/
def rdRegOfPayload (p : BitVec (5 * 4)) : Instr := .rdreg (p.extractLsb' 16 4) (p.extractLsb' 6 9)

theorem unpackCommand_pulse (c : Config) : unpackCommand c .pulse = unpackPayload c c.idPulse 2 pulseOfPayload := rfl
theorem unpackCommand_cal (c : Config) : unpackCommand c .cal = unpackPayload c c.idCal 4 calOfPayload := rfl
theorem unpackCommand_rdreg (c : Config) : unpackCommand c .rdreg = unpackPayload c c.idRdReg 4 rdRegOfPayload := rfl

/-- Settles O23: Pulse is the payload parser at two symbols. -/
theorem pulseParserFollowsItsRule : Obligations.PulseParserFollowsItsRule := fun c => by
  rw [unpackCommand_pulse]
  exact unpackPayload_followsItsRule c c.idPulse 2 pulseOfPayload

/-- Settles O24: Cal is the payload parser at four symbols. -/
theorem calParserFollowsItsRule : Obligations.CalParserFollowsItsRule := fun c => by
  rw [unpackCommand_cal]
  exact unpackPayload_followsItsRule c c.idCal 4 calOfPayload

/-- Settles O25: RdReg is the payload parser at four symbols. -/
theorem rdRegParserFollowsItsRule : Obligations.RdRegParserFollowsItsRule := fun c => by
  rw [unpackCommand_rdreg]
  exact unpackPayload_followsItsRule c c.idRdReg 4 rdRegOfPayload

/-! ## WrReg: the mode bit picks the payload -/

theorem unsyms_one (c : Config) (b : Byte) (rest : List Byte) :
    unsyms c 1 (b :: rest) = (symDec c b).map fun v => [v] := by
  cases h : symDec c b <;> simp [unsyms, h]

theorem unsyms_succ_some (c : Config) (k : Nat) (bs : List Byte) (g : Group) (gs : List Group)
    (h : unsyms c (k + 1) bs = some (g :: gs)) : ∃ b rest, bs = b :: rest ∧ symDec c b = some g := by
  cases bs with
  | nil => cases h
  | cons b rest =>
    simp only [unsyms] at h
    split at h
    next => cases h
    next v hv =>
      split at h
      next => cases h
      next => cases h; exact ⟨b, rest, rfl, hv⟩

/-- The first group is the payload's most significant five bits (R93). -/
theorem cutGroups_succ (k : Nat) (p : BitVec (5 * (k + 1))) :
    ∃ gs, cutGroups (k + 1) p = p.extractLsb' (5 * k) 5 :: gs := by
  rw [cutGroups, List.range_succ_eq_map]
  exact ⟨_, rfl⟩

/-- Where a payload can be read, its first byte is a symbol whose low bit is the payload's bit `5k`: the place of the mode
bit in both forms of WrReg (R97, R98). -/
theorem symDec_of_unsyms_cutGroups (c : Config) (k : Nat) (bs : List Byte) (p : BitVec (5 * (k + 1)))
    (h : unsyms c (k + 1) bs = some (cutGroups (k + 1) p)) :
    ∃ b rest g, bs = b :: rest ∧ symDec c b = some g ∧ g.getLsbD 0 = p.getLsbD (5 * k) := by
  obtain ⟨gs, hgs⟩ := cutGroups_succ k p
  rw [hgs] at h
  obtain ⟨b, rest, hbs, hb⟩ := unsyms_succ_some c k bs _ gs h
  exact ⟨b, rest, _, hbs, hb, by simp⟩

/-- The WrReg a payload of six groups spells (R97). -/
def wrRegOfPayload (p : BitVec (5 * 6)) : Instr := .wrreg (p.extractLsb' 26 4) (p.extractLsb' 16 9) (p.extractLsb' 0 16)

/-- The WrReg of six values a payload of 22 groups spells (R98). -/
def wrReg6OfPayload (p : BitVec (5 * 22)) : Instr :=
  .wrreg6 (p.extractLsb' 106 4) (p.extractLsb' 96 9) (p.extractLsb' 80 16) (p.extractLsb' 64 16) (p.extractLsb' 48 16)
    (p.extractLsb' 32 16) (p.extractLsb' 16 16) (p.extractLsb' 0 16)

section wrReg

variable (c : Config) (b2 : Byte) (g0 : Group) (rest : List Byte)

theorem unpackWrRegSingle_badSymbol (h : unsyms c 6 rest = none) : unpackWrRegSingle c rest = .fail .badSymbol := by
  simp only [unpackWrRegSingle, h]

theorem unpackWrRegSingle_got (p : BitVec (5 * 6)) (h : unsyms c 6 rest = some (cutGroups 6 p)) :
    unpackWrRegSingle c rest = .got (wrRegOfPayload p) 8 := by
  have hp : joinGroups 30 (cutGroups 6 p) = p := joinGroups_cutGroups 6 p
  simp only [unpackWrRegSingle, h, hp, wrRegOfPayload]

theorem unpackWrRegSextuple_badSymbol (h : unsyms c 22 rest = none) :
    unpackWrRegSextuple c rest = .fail .badSymbol := by
  simp only [unpackWrRegSextuple, h]

theorem unpackWrRegSextuple_got (p : BitVec (5 * 22)) (h : unsyms c 22 rest = some (cutGroups 22 p)) :
    unpackWrRegSextuple c rest = .got (wrReg6OfPayload p) 24 := by
  have hp : joinGroups 110 (cutGroups 22 p) = p := joinGroups_cutGroups 22 p
  simp only [unpackWrRegSextuple, h, hp, wrReg6OfPayload]

theorem unpackWrReg_noMatch (bs : List Byte)
    (h : ¬ (bs[0]? = some (c.idWrReg.extractLsb' 0 8) ∧ bs[1]? = some (c.idWrReg.extractLsb' 8 8))) :
    unpackWrReg c bs = .fail .noMatch := by
  simp only [unpackWrReg, (afterId_none_iff (idLE c.idWrReg) bs).2 h]

theorem unpackWrReg_short (h : rest.length < 6) :
    unpackWrReg c ((idLE c.idWrReg).1 :: (idLE c.idWrReg).2 :: rest) = .fail .truncated := by
  simp only [unpackWrReg, afterId_cons, List.length_cons]
  exact if_pos (by omega)

theorem unpackWrReg_badFirst (h : 5 ≤ rest.length) (hb : symDec c b2 = none) :
    unpackWrReg c ((idLE c.idWrReg).1 :: (idLE c.idWrReg).2 :: b2 :: rest) = .fail .badSymbol := by
  simp only [unpackWrReg, afterId_cons, List.length_cons, unsyms_one, hb, Option.map_none]
  exact if_neg (by omega)

theorem unpackWrReg_mode0 (h : 5 ≤ rest.length) (hb : symDec c b2 = some g0) (hm : g0.getLsbD 0 = false) :
    unpackWrReg c ((idLE c.idWrReg).1 :: (idLE c.idWrReg).2 :: b2 :: rest) = unpackWrRegSingle c (b2 :: rest) := by
  simp only [unpackWrReg, afterId_cons, List.length_cons, unsyms_one, hb, Option.map_some, hm, Bool.false_eq_true,
    if_false]
  exact if_neg (by omega)

theorem unpackWrReg_mode1 (h : 5 ≤ rest.length) (hb : symDec c b2 = some g0) (hm : g0.getLsbD 0 = true) :
    unpackWrReg c ((idLE c.idWrReg).1 :: (idLE c.idWrReg).2 :: b2 :: rest) =
      if rest.length < 21 then .fail .truncated else unpackWrRegSextuple c (b2 :: rest) := by
  simp only [unpackWrReg, afterId_cons, List.length_cons, unsyms_one, hb, Option.map_some, hm, if_true]
  rw [if_neg (by omega)]
  exact if_congr (by omega) rfl rfl

theorem unpackWrReg_mode1_long (h : 21 ≤ rest.length) (hb : symDec c b2 = some g0) (hm : g0.getLsbD 0 = true) :
    unpackWrReg c ((idLE c.idWrReg).1 :: (idLE c.idWrReg).2 :: b2 :: rest) = unpackWrRegSextuple c (b2 :: rest) :=
  (unpackWrReg_mode1 c b2 g0 rest (by omega) hb hm).trans (if_neg (by omega))

theorem unpackWrReg_got_single (p : BitVec (5 * 6)) (h : 6 ≤ rest.length) (hm : p.getLsbD 25 = false)
    (hs : unsyms c 6 rest = some (cutGroups 6 p)) :
    unpackWrReg c ((idLE c.idWrReg).1 :: (idLE c.idWrReg).2 :: rest) = .got (wrRegOfPayload p) 8 := by
  obtain ⟨b2, tail, g0, rfl, hb, hg⟩ := symDec_of_unsyms_cutGroups c 5 rest p hs
  rw [unpackWrReg_mode0 c b2 g0 tail (Nat.le_of_succ_le_succ h) hb (hg.trans hm)]
  exact unpackWrRegSingle_got c (b2 :: tail) p hs

theorem unpackWrReg_got_sextuple (p : BitVec (5 * 22)) (h : 22 ≤ rest.length) (hm : p.getLsbD 105 = true)
    (hs : unsyms c 22 rest = some (cutGroups 22 p)) :
    unpackWrReg c ((idLE c.idWrReg).1 :: (idLE c.idWrReg).2 :: rest) = .got (wrReg6OfPayload p) 24 := by
  obtain ⟨b2, tail, g0, rfl, hb, hg⟩ := symDec_of_unsyms_cutGroups c 21 rest p hs
  rw [unpackWrReg_mode1_long c b2 g0 tail (Nat.le_of_succ_le_succ h) hb (hg.trans hm)]
  exact unpackWrRegSextuple_got c (b2 :: tail) p hs

end wrReg

/-- Settles O26: the identifier, the length and the first symbol decide which of the two payloads is read. -/
theorem wrRegParserFollowsItsRule : Obligations.WrRegParserFollowsItsRule := fun c => by
  refine ⟨unpackWrReg_noMatch c, unpackWrReg_short c, unpackWrReg_badFirst c, ?longShort, ?singleBad, ?longBad,
    unpackWrReg_got_single c, unpackWrReg_got_sextuple c⟩
  case longShort =>
    intro b2 g0 rest h hshort hb hm
    exact (unpackWrReg_mode1 c b2 g0 rest h hb hm).trans (if_pos hshort)
  case singleBad =>
    intro b2 g0 rest h hb hm hs
    exact (unpackWrReg_mode0 c b2 g0 rest h hb hm).trans (unpackWrRegSingle_badSymbol c (b2 :: rest) hs)
  case longBad =>
    intro b2 g0 rest h hb hm hs
    exact (unpackWrReg_mode1_long c b2 g0 rest h hb hm).trans (unpackWrRegSextuple_badSymbol c (b2 :: rest) hs)

/-! ## Trigger: a pattern of the table, then a symbol -/

theorem untrig_of_getElem? (c : Config) (hw : c.trigWf = true) (b : Byte) (bc : BitVec 4) (h0 : bc ≠ 0)
    (h : c.trig.toList[bc.toNat - 1]? = some b) : untrig c b = some bc :=
  untrig_trigOf c hw bc b ((if_neg h0).trans h)

theorem unpackTrigger_notPattern (c : Config) (b0 : Byte) (rest : List Byte) (h : untrig c b0 = none) :
    unpackTrigger c (b0 :: rest) = .fail .noMatch := by
  simp only [unpackTrigger, h]

theorem unpackTrigger_patternAlone (c : Config) (b0 : Byte) (bc : BitVec 4) (h : untrig c b0 = some bc) :
    unpackTrigger c [b0] = .fail .truncated := by
  simp only [unpackTrigger, h]

theorem unpackTrigger_badSymbol (c : Config) (b0 b1 : Byte) (rest : List Byte) (bc : BitVec 4)
    (h : untrig c b0 = some bc) (hb : symDec c b1 = none) :
    unpackTrigger c (b0 :: b1 :: rest) = .fail .badSymbol := by
  simp only [unpackTrigger, h, hb]

theorem unpackTrigger_got (c : Config) (b0 b1 : Byte) (rest : List Byte) (bc : BitVec 4) (tag : Group)
    (h : untrig c b0 = some bc) (hb : symDec c b1 = some tag) :
    unpackTrigger c (b0 :: b1 :: rest) = .got (.trigger bc tag) 2 := by
  simp only [unpackTrigger, h, hb]

/-- Settles O27: the search in an injective table finds the bitmap itself, so never 0. -/
theorem triggerParserFollowsItsRule : Obligations.TriggerParserFollowsItsRule := fun c hw => by
  refine ⟨rfl, fun b0 rest hb0 => unpackTrigger_notPattern c b0 rest ((untrig_none_iff c b0).2 hb0), ?_⟩
  intro b0 bc h0 hentry
  have hpattern : untrig c b0 = some bc := untrig_of_getElem? c hw b0 bc h0 hentry
  refine ⟨unpackTrigger_patternAlone c b0 bc hpattern, fun b1 rest => ?_⟩
  cases hb : symDec c b1 with
  | none => exact unpackTrigger_badSymbol c b0 b1 rest bc hpattern hb
  | some tag => exact unpackTrigger_got c b0 b1 rest bc tag hpattern hb

end Sys2Proof

/-! The frame parsers on the bytes they are given (`44_frame_pack_unpack.md` R222, R226, R229), and the bytes of a BlankFrame
(R221).

The three parsers read one 64-bit word (R220) and differ in what they make of it. So the bytes of a frame are tied to its word
once (`frameWord_bytesOf64`, `exists_bytesOf64_append`), and each parser's rule is a statement about the word. -/

namespace Sys2Proof

/-! ## The word of eight bytes -/

/-- The bytes of a word made of eight bytes are those bytes. -/
theorem bytesOf64_bytes (b0 b1 b2 b3 b4 b5 b6 b7 : Byte) :
    bytesOf64 (b0 ++ b1 ++ b2 ++ b3 ++ b4 ++ b5 ++ b6 ++ b7) = [b0, b1, b2, b3, b4, b5, b6, b7] := by
  simp (disch := omega) [bytesOf64, BitVec.extractLsb'_append_eq_of_le (w := 8),
    BitVec.extractLsb'_append_eq_of_add_le (w := 8)]

/-- The bytes of a word made of two sub-frame words (R106) are the bytes of the two. -/
theorem bytesOf64_words (s0 s1 : BitVec 32) :
    bytesOf64 (s0 ++ s1) =
      [s0.extractLsb' 24 8, s0.extractLsb' 16 8, s0.extractLsb' 8 8, s0.extractLsb' 0 8,
       s1.extractLsb' 24 8, s1.extractLsb' 16 8, s1.extractLsb' 8 8, s1.extractLsb' 0 8] := by
  simp (disch := omega) [bytesOf64, BitVec.extractLsb'_append_eq_of_le (v := 32) (w := 32),
    BitVec.extractLsb'_append_eq_of_add_le (v := 32) (w := 32)]

theorem bytesOf64_wordBlank (c : Config) : bytesOf64 (wordBlank c) = [c.blankCode, 0, 0, 0, 0, 0, 0, 0] := by
  simp (disch := omega) [bytesOf64, wordBlank, BitVec.extractLsb'_append_eq_of_le (v := 8) (w := 56),
    BitVec.extractLsb'_append_eq_of_add_le (v := 8) (w := 56)]

/-- Eight bytes or more begin with the bytes of a word. -/
theorem exists_bytesOf64_append (bs : List Byte) (h : 8 ≤ bs.length) : ∃ w rest, bs = bytesOf64 w ++ rest := by
  obtain ⟨w, hw⟩ := Option.isSome_iff_exists.1 ((word64_some_iff bs).2 h)
  unfold word64 at hw
  split at hw
  next b0 b1 b2 b3 b4 b5 b6 b7 rest => exact ⟨_, rest, by rw [bytesOf64_bytes]; rfl⟩
  next => cases hw

section frameWord

variable {c : Config} (hc : c.frameLen = 8)
include hc

theorem frameWord_bytesOf64 (w : BitVec 64) (rest : List Byte) : frameWord c (bytesOf64 w ++ rest) = some w := by
  rw [frameWord_eq_word64 c _ hc, word64_bytesOf64]

/-- All three parsers fail before they read a byte where a frame does not fit (R220). -/
theorem unpackFrame_truncated (v : FrameVariant) (bs : List Byte) (h : bs.length < 8) :
    unpackFrame c v bs = .fail .truncated := by
  have hnone : frameWord c bs = none := if_pos (hc ▸ h)
  cases v with
  | register => simp only [unpackFrame, unpackRegister, hnone]
  | blank => simp only [unpackFrame, unpackBlank, hnone]
  | data => simp only [unpackFrame, unpackData, hnone]

end frameWord

/-! ## Blank -/

theorem unpackFrame_blank {c : Config} (hc : c.frameLen = 8) (w : BitVec 64) (rest : List Byte) :
    unpackFrame c .blank (bytesOf64 w ++ rest) = if w = wordBlank c then .got .blank 8 else .fail .noMatch := by
  simp only [unpackFrame, unpackBlank, frameWord_bytesOf64 hc, hc]

/-- A word is the blank word when its bytes are the blank code and seven zeros, the word being determined by its bytes. -/
theorem eq_wordBlank_iff (c : Config) (w : BitVec 64) (rest : List Byte) :
    w = wordBlank c ↔ (bytesOf64 w ++ rest)[0]? = some c.blankCode ∧
      ∀ k, 1 ≤ k → k < 8 → (bytesOf64 w ++ rest)[k]? = some 0 := by
  constructor
  · rintro rfl
    rw [bytesOf64_wordBlank]
    exact ⟨rfl, fun k hlo hhi => by interval_cases k <;> rfl⟩
  · rintro ⟨hcode, hzero⟩
    refine bytesOf64_injective w (wordBlank c) ?_
    have hbyte (k : Nat) (hlo : 1 ≤ k) (hhi : k < 8) : (bytesOf64 w)[k]? = some 0 := by
      rw [← hzero k hlo hhi, List.getElem?_append_left hhi]
    rw [bytesOf64_wordBlank]
    refine List.ext_getElem? fun k => ?_
    match k with
    | 0 => exact hcode
    | 1 | 2 | 3 | 4 | 5 | 6 | 7 => exact hbyte _ (by decide) (by decide)
    | _ + 8 => rfl

/-- Settles O28: too few bytes are refused by every frame parser; otherwise the first eight bytes are those of a word, and
they spell the blank word exactly when they are the code and seven zeros. -/
theorem blankParserFollowsItsRule : Obligations.BlankParserFollowsItsRule := fun c bs hc => by
  by_cases hshort : bs.length < 8
  · rw [if_pos hshort, unpackFrame_truncated hc .blank bs hshort]
  · obtain ⟨w, rest, rfl⟩ := exists_bytesOf64_append bs (Nat.le_of_not_lt hshort)
    rw [if_neg hshort, unpackFrame_blank hc]
    exact if_congr (eq_wordBlank_iff c w rest) rfl rfl

/-! ## Register -/

/-- The Register a frame word spells, its three flags given (R104, R226). -/
def registerOfWord (w : BitVec 64) (auto1 auto2 err : Bool) : Instr :=
  .register (w.extractLsb' 52 4) (w.extractLsb' 42 10) (w.extractLsb' 26 16) (w.extractLsb' 16 10) (w.extractLsb' 0 16)
    auto1 auto2 err

/-- Where the fields of a Register lie in the bytes (R104): `addr1`, `val1` and `addr2` share bytes with their neighbours. -/
theorem registerOfWord_bytes (b0 b1 b2 b3 b4 b5 b6 b7 : Byte) (auto1 auto2 err : Bool) :
    registerOfWord (b0 ++ b1 ++ b2 ++ b3 ++ b4 ++ b5 ++ b6 ++ b7) auto1 auto2 err =
      .register (b1.extractLsb' 4 4) (b1.extractLsb' 0 4 ++ b2.extractLsb' 2 6)
        (b2.extractLsb' 0 2 ++ b3 ++ b4.extractLsb' 2 6) (b4.extractLsb' 0 2 ++ b5) (b6 ++ b7) auto1 auto2 err := by
  simp (disch := omega) [registerOfWord, BitVec.extractLsb'_append_eq_of_le (w := 8),
    BitVec.extractLsb'_append_eq_ite (w := 8)]

/-- The legality test and the flags of `AURORA.DEC` (R224) are one choice among the five codes: only the error code is both
legal and outside the first four. -/
theorem unpackFrame_register {c : Config} (hc : c.frameLen = 8) (w : BitVec 64) (rest : List Byte) :
    unpackFrame c .register (bytesOf64 w ++ rest) =
      if w.extractLsb' 56 8 = c.aurAA then .got (registerOfWord w true true false) 8
      else if w.extractLsb' 56 8 = c.aurAE then .got (registerOfWord w true false false) 8
      else if w.extractLsb' 56 8 = c.aurEA then .got (registerOfWord w false true false) 8
      else if w.extractLsb' 56 8 = c.aurEE then .got (registerOfWord w false false false) 8
      else if w.extractLsb' 56 8 = c.aurErr then .got (registerOfWord w false false true) 8
      else .fail .noMatch := by
  simp only [unpackFrame, unpackRegister, frameWord_bytesOf64 hc, hc]
  by_cases hlegal : auroraLegal c (w.extractLsb' 56 8) = true
  · rw [if_pos hlegal, auroraDec]
    split_ifs with hAA hAE hEA hEE hErr
    case neg => simp [auroraLegal, hAA, hAE, hEA, hEE, hErr] at hlegal
    all_goals rfl
  · rw [if_neg hlegal]
    simp only [auroraLegal, Bool.or_eq_true, beq_iff_eq, not_or] at hlegal
    obtain ⟨⟨⟨⟨hAA, hAE⟩, hEA⟩, hEE⟩, hErr⟩ := hlegal
    rw [if_neg hAA, if_neg hAE, if_neg hEA, if_neg hEE, if_neg hErr]

/-- Settles O29: the first byte decides by the choice among the five codes, and the other seven give the fields. That the
codes are distinct is not needed: the statement tests them in the order of `AURORA.DEC`. -/
theorem registerParserFollowsItsRule : Obligations.RegisterParserFollowsItsRule := fun c _ hc => by
  refine ⟨unpackFrame_truncated hc .register, fun b0 b1 b2 b3 b4 b5 b6 b7 rest => ?_⟩
  have hrule := unpackFrame_register hc (b0 ++ b1 ++ b2 ++ b3 ++ b4 ++ b5 ++ b6 ++ b7) rest
  have hfirst : (b0 ++ b1 ++ b2 ++ b3 ++ b4 ++ b5 ++ b6 ++ b7).extractLsb' 56 8 = b0 :=
    (List.cons.inj (bytesOf64_bytes b0 b1 b2 b3 b4 b5 b6 b7)).1
  rw [bytesOf64_bytes, hfirst] at hrule
  simp only [registerOfWord_bytes] at hrule
  exact hrule

/-! ## Data -/

theorem unpackFrame_data {c : Config} (hc : c.frameLen = 8) (s0 s1 : BitVec 32) (rest : List Byte) :
    unpackFrame c .data (bytesOf64 (s0 ++ s1) ++ rest) =
      .got (.data (subUnpack c s0 .pos0) (subUnpack c s1 .pos1)) 8 := by
  have hhigh : (s0 ++ s1).extractLsb' 32 32 = s0 := BitVec.extractLsb'_append_eq_left
  have hlow : (s0 ++ s1).extractLsb' 0 32 = s1 := BitVec.extractLsb'_append_eq_right
  simp only [unpackFrame, unpackData, frameWord_bytesOf64 hc, hc]
  rw [hhigh, hlow]

/-- Settles O30: the two halves of the frame word are the two sub-frame words, and `SUB.UNPACK` cuts each one as
`SUB.CLASSIFY` types it. -/
theorem dataParserFollowsItsRule : Obligations.DataParserFollowsItsRule := fun c hc => by
  refine ⟨unpackFrame_truncated hc .data, fun s0 s1 rest => ?_⟩
  have hrule := unpackFrame_data hc s0 s1 rest
  rw [bytesOf64_words] at hrule
  exact hrule

end Sys2Proof

namespace Sys2Proof.Machine

/-! ## Writing a BlankFrame -/

/-- Settles O11: the record has no field, so its encoding is the bytes of the blank word. -/
theorem blankWritesEightBytes : Obligations.BlankWritesEightBytes := fun s hs =>
  exec_writing rfl hs (bytesOf64_wordBlank s.cfg)

end Sys2Proof.Machine

/-! # The frame disambiguator: the format tag (spec/45) -/

namespace Sys2Proof

/-- The table of R251, read by the kinds of the two sub-frames: nothing where position 1 is a sync (R41). -/
def tagOfKinds : SubKind → SubKind → Option FormatTag
  | .isHeader, .isHeader => some .headerHeader
  | .isHeader, .isHit => some .headerHit
  | .isHit, .isHeader => some .hitHeader
  | .isHit, .isHit => some .hitHit
  | .isSync, .isHeader => some .syncHeader
  | .isSync, .isHit => some .syncHit
  | _, .isSync => none

theorem subClassify_pos1_ne_sync (c : Config) (s : BitVec 32) : subClassify c s .pos1 ≠ .isSync := fun hsync =>
  subUnpack_pos1_ne_sync c s (by rw [subUnpack, hsync])

/-- The tag of a parsed pair depends on the words only through their two discriminations: `SUB.UNPACK` cuts fields, which
`FMT.TAG` does not read. -/
theorem fmtTag_subUnpack (c : Config) (s0 s1 : BitVec 32) (p0 p1 : SubPos) :
    fmtTag (subUnpack c s0 p0) (subUnpack c s1 p1) = tagOfKinds (subClassify c s0 p0) (subClassify c s1 p1) := by
  unfold subUnpack
  cases subClassify c s0 p0 <;> cases subClassify c s1 p1 <;> rfl

/-- On the byte level the tag always exists, position 1 never being a sync. -/
theorem tagOfKinds_subClassify (c : Config) (s0 s1 : BitVec 32) :
    tagOfKinds (subClassify c s0 .pos0) (subClassify c s1 .pos1) = some (fmtTagOfWords c s0 s1) := by
  unfold fmtTagOfWords
  cases hkind : subClassify c s1 .pos1 with
  | isSync => exact absurd hkind (subClassify_pos1_ne_sync c s1)
  | isHeader => cases subClassify c s0 .pos0 <;> rfl
  | isHit => cases subClassify c s0 .pos0 <;> rfl

/-- Settles O33: the tag of a parsed pair is the table's row for the two kinds, and position 1 never being a sync, the row
is that of the words; on records the six rows are the definition's own. -/
theorem formatTagIsTheCrossProduct : Obligations.FormatTagIsTheCrossProduct := fun c s0 s1 => by
  have hrow := fmtTag_subUnpack c s0 s1 .pos0 .pos1
  exact ⟨hrow, hrow.trans (tagOfKinds_subClassify c s0 s1), fun _ _ _ _ => ⟨rfl, rfl, rfl, rfl, rfl, rfl⟩⟩

end Sys2Proof

/-! What a well-formed configuration gives (R7, logs 8 and 26), taken apart once. -/

namespace Sys2Proof

/-- The parts of `Config.wf`, the frame length as a number. -/
structure WellFormed (c : Config) : Prop where
  sym : c.symWf = true
  trig : c.trigWf = true
  aurora : c.auroraWf = true
  disc : c.discWf = true
  cmdOrder : c.cmdProbeOrder.isPerm cmdOrderOfR202 = true
  frameOrder : c.frameProbeOrder.isPerm frameOrderOfR271 = true
  frameLen : c.frameLen = 8

theorem wellFormed_of_wf {c : Config} (h : c.wf = true) : WellFormed c := by
  simp only [Config.wf, Config.orderWf, Config.frameWf, Bool.and_eq_true, decide_eq_true_eq] at h
  obtain ⟨⟨⟨⟨⟨hsym, htrig⟩, haurora⟩, hdisc⟩, hcmd, hframe⟩, hlen⟩ := h
  exact ⟨hsym, htrig, haurora, hdisc, hcmd, hframe, hlen⟩

end Sys2Proof

/-! The two forms of WrReg byte by byte (R158, R97, R98), and the round trip of every command record (R181): each payload
gives back the fields it was made of, so each parser, run on what the packer wrote, answers the record. -/

namespace Sys2Proof

/-! ## The bytes of a WrReg -/

/-- `address` and `value` lie across group borders: `value`'s top bit ends the third group. -/
theorem cutGroups_payloadWrReg (chipId : BitVec 4) (address : BitVec 9) (value : BitVec 16) :
    cutGroups 6 (payloadWrReg chipId address value) =
      [chipId ++ 0#1, address.extractLsb' 4 5, address.extractLsb' 0 4 ++ value.extractLsb' 15 1,
       value.extractLsb' 10 5, value.extractLsb' 5 5, value.extractLsb' 0 5] := by
  refine cutGroups_eq_of_joinNat _ rfl ?_
  simp only [joinNat, payloadWrReg, toNat_append_eq_add, BitVec.extractLsb'_toNat, Nat.shiftRight_eq_div_pow]
  omega

theorem encode_wrreg (c : Config) (chipId : BitVec 4) (address : BitVec 9) (value : BitVec 16) :
    encode c (.wrreg chipId address value) =
      [c.idWrReg.extractLsb' 0 8, c.idWrReg.extractLsb' 8 8, symEnc c (chipId ++ 0#1),
       symEnc c (address.extractLsb' 4 5), symEnc c (address.extractLsb' 0 4 ++ value.extractLsb' 15 1),
       symEnc c (value.extractLsb' 10 5), symEnc c (value.extractLsb' 5 5), symEnc c (value.extractLsb' 0 5)] :=
  packPayload_of_cutGroups c c.idWrReg (cutGroups_payloadWrReg chipId address value)

/-- Byte `2 + i` of a payload record is the symbol of group `i` (R93). -/
theorem packPayload_getElem? (c : Config) (id : BitVec 16) (k : Nat) (p : BitVec (5 * k)) (i : Nat) (h : i < k) :
    (packPayload c id k p)[2 + i]? = some (symEnc c (p.extractLsb' (5 * (k - i) - 5) 5)) := by
  have hplace : 5 * (k - 1 - i) = 5 * (k - i) - 5 := by omega
  rw [Nat.add_comm]
  simp [packPayload, cutGroups, h, hplace]

/-! ## A payload gives back its fields -/

theorem pulseOfPayload_payloadPulse (chipId length : BitVec 4) :
    pulseOfPayload (payloadPulse chipId length) = .pulse chipId length := by
  simp only [pulseOfPayload, payloadPulse, Instr.pulse.injEq, ← BitVec.toNat_inj, BitVec.extractLsb'_toNat,
    Nat.shiftRight_eq_div_pow, toNat_append_eq_add, BitVec.toNat_ofNat]
  omega

theorem calOfPayload_payloadCal (chipId : BitVec 4) (edgeMode : BitVec 1) (edgeDelay : BitVec 3)
    (edgeWidth : BitVec 6) (auxMode : BitVec 1) (auxDelay : BitVec 5) :
    calOfPayload (payloadCal chipId edgeMode edgeDelay edgeWidth auxMode auxDelay) =
      .cal chipId edgeMode edgeDelay edgeWidth auxMode auxDelay := by
  simp only [calOfPayload, payloadCal, Instr.cal.injEq, ← BitVec.toNat_inj, BitVec.extractLsb'_toNat,
    Nat.shiftRight_eq_div_pow, toNat_append_eq_add]
  omega

theorem rdRegOfPayload_payloadRdReg (chipId : BitVec 4) (address : BitVec 9) :
    rdRegOfPayload (payloadRdReg chipId address) = .rdreg chipId address := by
  simp only [rdRegOfPayload, payloadRdReg, Instr.rdreg.injEq, ← BitVec.toNat_inj, BitVec.extractLsb'_toNat,
    Nat.shiftRight_eq_div_pow, toNat_append_eq_add, BitVec.toNat_ofNat]
  omega

theorem wrRegOfPayload_payloadWrReg (chipId : BitVec 4) (address : BitVec 9) (value : BitVec 16) :
    wrRegOfPayload (payloadWrReg chipId address value) = .wrreg chipId address value := by
  simp only [wrRegOfPayload, payloadWrReg, Instr.wrreg.injEq, ← BitVec.toNat_inj, BitVec.extractLsb'_toNat,
    Nat.shiftRight_eq_div_pow, toNat_append_eq_add, BitVec.toNat_ofNat]
  omega

theorem wrReg6OfPayload_payloadWrReg6 (chipId : BitVec 4) (address : BitVec 9) (v0 v1 v2 v3 v4 v5 : BitVec 16) :
    wrReg6OfPayload (payloadWrReg6 chipId address v0 v1 v2 v3 v4 v5) = .wrreg6 chipId address v0 v1 v2 v3 v4 v5 := by
  simp only [wrReg6OfPayload, payloadWrReg6, Instr.wrreg6.injEq, ← BitVec.toNat_inj, BitVec.extractLsb'_toNat,
    Nat.shiftRight_eq_div_pow, toNat_append_eq_add, BitVec.toNat_ofNat]
  omega

/-- The mode bit of the short form (R97). -/
theorem payloadWrReg_mode (chipId : BitVec 4) (address : BitVec 9) (value : BitVec 16) :
    (payloadWrReg chipId address value).getLsbD 25 = false := by
  change (chipId ++ 0#1 ++ address ++ value).getLsbD 25 = false
  simp only [BitVec.getLsbD_append, Nat.reduceLT, Nat.reduceSub, if_false, if_true]
  rfl

/-- The mode bit of the long form (R98). -/
theorem payloadWrReg6_mode (chipId : BitVec 4) (address : BitVec 9) (v0 v1 v2 v3 v4 v5 : BitVec 16) :
    (payloadWrReg6 chipId address v0 v1 v2 v3 v4 v5).getLsbD 105 = true := by
  change (chipId ++ 1#1 ++ address ++ v0 ++ v1 ++ v2 ++ v3 ++ v4 ++ v5).getLsbD 105 = true
  simp only [BitVec.getLsbD_append, Nat.reduceLT, Nat.reduceSub, if_false, if_true]
  rfl

/-! ## Every command record parses back -/

theorem unpackPlain_cons (id : Byte × Byte) (rec : Instr) (rest : List Byte) :
    unpackPlain id rec (id.1 :: id.2 :: rest) = .got rec 2 := by
  simp only [unpackPlain, afterId_cons]

theorem unpackPayload_packPayload (c : Config) (h : c.symWf = true) (id : BitVec 16) (k : Nat)
    {record : BitVec (5 * k) → Instr} {p : BitVec (5 * k)} {i : Instr} (hp : record p = i) (rest : List Byte) :
    unpackPayload c id k record (packPayload c id k p ++ rest) = .got i (k + 2) := by
  rw [← hp]
  exact unpackPayload_got c id k record _ p (by simp) (unsyms_payload c h k p rest)

theorem unpackWrReg_packWrReg (c : Config) (h : c.symWf = true) (chipId : BitVec 4) (address : BitVec 9)
    (value : BitVec 16) (rest : List Byte) :
    unpackWrReg c (packWrReg c chipId address value ++ rest) = .got (.wrreg chipId address value) 8 := by
  rw [← wrRegOfPayload_payloadWrReg]
  exact unpackWrReg_got_single c _ _ (by simp) (payloadWrReg_mode ..) (unsyms_payload c h 6 _ rest)

theorem unpackWrReg_packWrReg6 (c : Config) (h : c.symWf = true) (chipId : BitVec 4) (address : BitVec 9)
    (v0 v1 v2 v3 v4 v5 : BitVec 16) (rest : List Byte) :
    unpackWrReg c (packWrReg6 c chipId address v0 v1 v2 v3 v4 v5 ++ rest) =
      .got (.wrreg6 chipId address v0 v1 v2 v3 v4 v5) 24 := by
  rw [← wrReg6OfPayload_payloadWrReg6]
  exact unpackWrReg_got_sextuple c _ _ (by simp) (payloadWrReg6_mode ..) (unsyms_payload c h 22 _ rest)

theorem unpackTrigger_packTrigger (c : Config) (hs : c.symWf = true) (ht : c.trigWf = true) (bc : BitVec 4)
    (tag : Group) (hbc : bc ≠ 0) (rest : List Byte) :
    unpackTrigger c (encode c (.trigger bc tag) ++ rest) = .got (.trigger bc tag) 2 := by
  obtain ⟨pattern, hpattern, -⟩ := trigOf_some c bc hbc
  rw [encode_trigger c bc tag pattern hpattern]
  exact unpackTrigger_got c pattern _ rest bc tag (untrig_trigOf c ht bc pattern hpattern) (symDec_symEnc c hs tag)

theorem unpackCommand_encode (c : Config) (i : Instr) (v : CmdVariant) (rest : List Byte) (hs : c.symWf = true)
    (ht : c.trigWf = true) (hi : i.wf = true) (hv : commandVariant i = some v) :
    unpackCommand c v (encode c i ++ rest) = .got i (wireLen c i) := by
  cases i with
  | ecr => cases hv; exact unpackPlain_cons (idLE c.idEcr) .ecr rest
  | bcr => cases hv; exact unpackPlain_cons (idLE c.idBcr) .bcr rest
  | noop => cases hv; exact unpackPlain_cons (idLE c.idNoop) .noop rest
  | sync => cases hv; exact unpackPlain_cons (idBE c.idSync) .sync rest
  | pulse chipId length =>
    cases hv; exact unpackPayload_packPayload c hs c.idPulse 2 (pulseOfPayload_payloadPulse ..) rest
  | cal chipId edgeMode edgeDelay edgeWidth auxMode auxDelay =>
    cases hv; exact unpackPayload_packPayload c hs c.idCal 4 (calOfPayload_payloadCal ..) rest
  | rdreg chipId address =>
    cases hv; exact unpackPayload_packPayload c hs c.idRdReg 4 (rdRegOfPayload_payloadRdReg ..) rest
  | wrreg chipId address value =>
    cases hv; exact unpackWrReg_packWrReg c hs chipId address value rest
  | wrreg6 chipId address v0 v1 v2 v3 v4 v5 =>
    cases hv; exact unpackWrReg_packWrReg6 c hs chipId address v0 v1 v2 v3 v4 v5 rest
  | trigger bc tag => cases hv; exact unpackTrigger_packTrigger c hs ht bc tag (bne_iff_ne.1 hi) rest
  | blank => cases hv
  | register => cases hv
  | data => cases hv
  | sym => cases hv

/-- Settles O39: each parser, run on its packer's bytes, answers the record those bytes were made of. -/
theorem commandRecordsRoundTrip : Obligations.CommandRecordsRoundTrip := fun c i v rest hc hi hv => by
  have hw := wellFormed_of_wf hc
  exact unpackCommand_encode c i v rest hw.sym hw.trig hi hv

end Sys2Proof

namespace Sys2Proof.Machine

/-- Settles O7: the record's eight bytes are those of `encode_wrreg`. -/
theorem wrRegWritesEightBytes : Obligations.WrRegWritesEightBytes := fun s chipId address value hs =>
  exec_writing rfl hs (encode_wrreg s.cfg chipId address value)

/-- Settles O8: the record's encoding is the bytes, each after the second the symbol of its group. -/
theorem wrReg6WritesTwentyFourBytes : Obligations.WrReg6WritesTwentyFourBytes :=
  fun s chipId address v0 v1 v2 v3 v4 v5 hs =>
    ⟨encode s.cfg (.wrreg6 chipId address v0 v1 v2 v3 v4 v5), rfl, rfl, rfl,
      packPayload_getElem? s.cfg s.cfg.idWrReg 22 (payloadWrReg6 chipId address v0 v1 v2 v3 v4 v5),
      exec_writing rfl hs rfl⟩

end Sys2Proof.Machine

/-! The aurora code, the sub-frame classes and the pixel coordinates (`45_frame_disambiguator.md` R250, R254, R255;
`44_frame_pack_unpack.md` R223, R224, R230): what each test says of the fields' numbers. -/

namespace Sys2Proof

/-! ## The aurora code -/

theorem auroraLegal_iff (c : Config) (a : Byte) :
    auroraLegal c a = true ↔ a = c.aurAA ∨ a = c.aurAE ∨ a = c.aurEA ∨ a = c.aurEE ∨ a = c.aurErr := by
  simp only [auroraLegal, Bool.or_eq_true, beq_iff_eq, or_assoc]

theorem auroraLegal_auroraEnc (c : Config) (auto1 auto2 err : Bool) :
    auroraLegal c (auroraEnc c auto1 auto2 err) = true := by
  rw [auroraLegal_iff]
  cases err <;> cases auto1 <;> cases auto2 <;> simp [auroraEnc]

/-- Each of the five codes is `AURORA.ENC` of some flags (R223). -/
theorem exists_auroraEnc (c : Config) (a : Byte) (h : auroraLegal c a = true) :
    ∃ auto1 auto2 err, auroraEnc c auto1 auto2 err = a := by
  rcases (auroraLegal_iff c a).1 h with rfl | rfl | rfl | rfl | rfl
  · exact ⟨true, true, false, rfl⟩
  · exact ⟨true, false, false, rfl⟩
  · exact ⟨false, true, false, rfl⟩
  · exact ⟨false, false, false, rfl⟩
  · exact ⟨false, false, true, rfl⟩

/-- `AURORA.DEC` gives back the flags, the auto flags of an error lost (R40). -/
theorem auroraDec_auroraEnc (c : Config) (h : c.auroraWf = true) (auto1 auto2 err : Bool) :
    auroraDec c (auroraEnc c auto1 auto2 err) = (auto1 && !err, auto2 && !err, err) := by
  simp only [Config.auroraWf, decide_eq_true_eq, List.nodup_cons, List.mem_cons, not_or] at h
  obtain ⟨-, ⟨hAA_AE, hAA_EA, hAA_EE, hAA_Err, -⟩, ⟨hAE_EA, hAE_EE, hAE_Err, -⟩, ⟨hEA_EE, hEA_Err, -⟩, ⟨hEE_Err, -⟩, -⟩ := h
  cases err <;> cases auto1 <;> cases auto2 <;>
    simp [auroraEnc, auroraDec, Ne.symm hAA_AE, Ne.symm hAA_EA, Ne.symm hAA_EE, Ne.symm hAA_Err, Ne.symm hAE_EA,
      Ne.symm hAE_EE, Ne.symm hAE_Err, Ne.symm hEA_EE, Ne.symm hEA_Err, Ne.symm hEE_Err]

theorem auroraDec_of_illegal (c : Config) (a : Byte) (h : auroraLegal c a = false) :
    auroraDec c a = (false, false, true) := by
  have hne : ¬ (a = c.aurAA ∨ a = c.aurAE ∨ a = c.aurEA ∨ a = c.aurEE ∨ a = c.aurErr) := by
    rw [← auroraLegal_iff, h]; exact Bool.false_ne_true
  simp only [not_or] at hne
  obtain ⟨hAA, hAE, hEA, hEE, -⟩ := hne
  rw [auroraDec, if_neg hAA, if_neg hAE, if_neg hEA, if_neg hEE]

/-- The blank code is no aurora code (R7 (c)). -/
theorem auroraLegal_blankCode (c : Config) (h : c.auroraWf = true) : auroraLegal c c.blankCode = false := by
  simp only [Config.auroraWf, decide_eq_true_eq, List.nodup_cons, List.mem_cons, not_or] at h
  obtain ⟨⟨hAA, hAE, hEA, hEE, hErr, -⟩, -⟩ := h
  simp [auroraLegal, *]

/-- Settles O31: the five codes are distinct, so the first test that succeeds is the code's own. -/
theorem auroraDecodeInvertsEncode : Obligations.AuroraDecodeInvertsEncode := fun c h => by
  refine ⟨fun auto1 auto2 => ?_, fun auto1 auto2 => ?_, auroraDec_of_illegal c, fun a => ⟨exists_auroraEnc c a, ?_⟩⟩
  · simpa using auroraDec_auroraEnc c h auto1 auto2 false
  · simpa using auroraDec_auroraEnc c h auto1 auto2 true
  · rintro ⟨auto1, auto2, err, rfl⟩
    exact auroraLegal_auroraEnc c auto1 auto2 err

/-! ## The discriminator -/

/-- The top `w` bits as a number are the number shifted down. -/
theorem toNat_extractLsb'_top {n w : Nat} (x : BitVec n) (h : w ≤ n) :
    (x.extractLsb' (n - w) w).toNat = (x >>> (n - w)).toNat := by
  rw [BitVec.extractLsb'_toNat, BitVec.toNat_ushiftRight, Nat.shiftRight_eq_div_pow]
  refine Nat.mod_eq_of_lt (Nat.div_lt_of_lt_mul ?_)
  rw [← Nat.pow_add, Nat.sub_add_cancel h]
  exact x.isLt

theorem isHeaderWord_iff (c : Config) (h : c.discWf = true) (s : BitVec 32) :
    isHeaderWord c s = true ↔
      s.extractLsb' (32 - c.hdrDiscWidth) c.hdrDiscWidth = c.hdrId.extractLsb' (7 - c.hdrDiscWidth) c.hdrDiscWidth := by
  simp only [Config.discWf, decide_eq_true_eq] at h
  rw [isHeaderWord, beq_iff_eq, ← BitVec.toNat_inj, toNat_extractLsb'_top s (by omega),
    toNat_extractLsb'_top c.hdrId h.2]

/-- The discriminator test as arithmetic. -/
theorem isHeaderWord_iff_div (c : Config) (s : BitVec 32) :
    isHeaderWord c s = true ↔
      s.toNat / 2 ^ (32 - c.hdrDiscWidth) = c.hdrId.toNat / 2 ^ (7 - c.hdrDiscWidth) := by
  simp only [isHeaderWord, beq_iff_eq, BitVec.toNat_ushiftRight, Nat.shiftRight_eq_div_pow]

/-- Settles O32: at a legal width the test compares the leading bits themselves. -/
theorem subFrameTypedByLeadingBits : Obligations.SubFrameTypedByLeadingBits := fun c s position h => by
  unfold subClassify
  exact if_congr Iff.rfl rfl (if_congr (isHeaderWord_iff c h s) rfl rfl)

/-! ## Sub-frame words as numbers -/

theorem subPack_header_toNat (c : Config) (h : Header) :
    (subPack c (.header h)).toNat =
      2 ^ 25 * c.hdrId.toNat + 2 ^ 20 * h.trigId.toNat + 2 ^ 15 * h.trigTag.toNat + h.bcid.toNat := by
  simp only [subPack, toNat_append_eq_add]
  omega

theorem subPack_hit_toNat (c : Config) (x : Hit) :
    (subPack c (.hit x)).toNat =
      2 ^ 26 * x.ccol.toNat + 2 ^ 20 * x.crow.toNat + 2 ^ 16 * x.region.toNat + 2 ^ 12 * x.tot0.toNat +
        2 ^ 8 * x.tot1.toNat + 2 ^ 4 * x.tot2.toNat + x.tot3.toNat := by
  simp only [subPack, toNat_append_eq_add]
  omega

theorem headerOf_subPack (c : Config) (h : Header) : headerOf (subPack c (.header h)) = h := by
  cases h
  simp only [headerOf, Header.mk.injEq, ← BitVec.toNat_inj, BitVec.extractLsb'_toNat, Nat.shiftRight_eq_div_pow,
    subPack_header_toNat]
  omega

theorem hitOf_subPack (c : Config) (x : Hit) : hitOf (subPack c (.hit x)) = x := by
  cases x
  simp only [hitOf, Hit.mk.injEq, ← BitVec.toNat_inj, BitVec.extractLsb'_toNat, Nat.shiftRight_eq_div_pow,
    subPack_hit_toNat]
  omega

/-- A Header's word begins with `HDR_ID`, so it passes the test at every legal width. -/
theorem isHeaderWord_subPack_header (c : Config) (hd : c.discWf = true) (h : Header) :
    isHeaderWord c (subPack c (.header h)) = true := by
  simp only [Config.discWf, decide_eq_true_eq] at hd
  obtain ⟨hlo, hhi⟩ := hd
  rw [isHeaderWord_iff_div, subPack_header_toNat]
  generalize c.hdrDiscWidth = w at hlo hhi ⊢
  interval_cases w <;> omega

/-! ## `SUB.UNPACK` by position -/

theorem subUnpack_pos1 (c : Config) (s : BitVec 32) :
    subUnpack c s .pos1 = if isHeaderWord c s then .header (headerOf s) else .hit (hitOf s) := by
  unfold subUnpack subClassify
  rw [if_neg (by simp)]
  split_ifs <;> rfl

theorem subUnpack_pos0 (c : Config) (s : BitVec 32) :
    subUnpack c s .pos0 = if s = syncWord c then .syncFill else subUnpack c s .pos1 := by
  unfold subUnpack subClassify
  by_cases hs : s = syncWord c <;> simp [hs]

theorem headerLike_eq (c : Config) (x : Hit) : headerLike c x = isHeaderWord c (subPack c (.hit x)) := by
  unfold headerLike subClassify
  rw [if_neg (by simp)]
  cases isHeaderWord c (subPack c (.hit x)) <;> rfl

theorem syncLike_iff (c : Config) (x : Hit) : syncLike c x = true ↔ subPack c (.hit x) = syncWord c := by
  rw [syncLike, beq_iff_eq]

/-! ## The classes of Hits -/

/-- Settles O35: a Hit's leading bits are `ccol` and the top of `crow`, and its word determines it. -/
theorem headerLikeHitsByWidth : Obligations.HeaderLikeHitsByWidth := fun c x hid hblank => by
  have hlead : headerLike c x = true ↔
      (2 ^ 26 * x.ccol.toNat + 2 ^ 20 * x.crow.toNat + 2 ^ 16 * x.region.toNat + 2 ^ 12 * x.tot0.toNat +
        2 ^ 8 * x.tot1.toNat + 2 ^ 4 * x.tot2.toNat + x.tot3.toNat) / 2 ^ (32 - c.hdrDiscWidth) =
          1 / 2 ^ (7 - c.hdrDiscWidth) := by
    rw [headerLike_eq, isHeaderWord_iff_div, subPack_hit_toNat, hid]
    rfl
  have hsync : syncWord c = 0x1E000000 := by rw [syncWord, hblank]; rfl
  refine ⟨fun hw => ?_, fun hw => ?_, fun hw => ?_, ?_⟩
  · rw [hlead, hw, ← BitVec.toNat_inj]
    simp only [BitVec.ofNat_eq_ofNat, BitVec.toNat_ofNat, Nat.reduceSub]
    omega
  · rw [hlead, hw]
    simp only [Nat.reduceSub]
    omega
  · rw [hlead, hw]
    simp only [Nat.reduceSub]
    omega
  · rw [syncLike_iff, hsync]
    constructor
    · intro hword
      rw [← hitOf_subPack c x, hword]
      rfl
    · rintro rfl
      rfl

/-- Settles O37: both coordinates are concatenations of `ccol` or `crow` with a part of `region`. -/
theorem hitPixelCoordinates : Obligations.HitPixelCoordinates := fun x i => by
  simp only [hitPixel, toNat_append_eq_add, BitVec.extractLsb'_toNat, Nat.shiftRight_eq_div_pow]
  omega

end Sys2Proof

/-! Frame records and frame words (`44_frame_pack_unpack.md` R225 to R231, `45_frame_disambiguator.md` R253 to R255).

Every frame record is packed as the bytes of one word (`frameWordOf`), and what the channel finds in eight bytes is a function
of their word (`recordOfWord`): the aurora test, then the blank word, then the two sub-frames. Which records come back is then a
comparison of words. -/

namespace Sys2Proof

/-! ## The bytes of a Register -/

theorem bytesOf64_wordRegister (a : Byte) (status : BitVec 4) (addr1 : BitVec 10) (val1 : BitVec 16)
    (addr2 : BitVec 10) (val2 : BitVec 16) :
    bytesOf64 (wordRegister a status addr1 val1 addr2 val2) =
      [a, status ++ addr1.extractLsb' 6 4, addr1.extractLsb' 0 6 ++ val1.extractLsb' 14 2, val1.extractLsb' 6 8,
       val1.extractLsb' 0 6 ++ addr2.extractLsb' 8 2, addr2.extractLsb' 0 8, val2.extractLsb' 8 8,
       val2.extractLsb' 0 8] := by
  simp only [bytesOf64, wordRegister, List.cons.injEq, ← BitVec.toNat_inj, BitVec.extractLsb'_toNat,
    Nat.shiftRight_eq_div_pow, toNat_append_eq_add, and_true]
  omega

theorem wordRegister_aurora (a : Byte) (status : BitVec 4) (addr1 : BitVec 10) (val1 : BitVec 16)
    (addr2 : BitVec 10) (val2 : BitVec 16) :
    (wordRegister a status addr1 val1 addr2 val2).extractLsb' 56 8 = a :=
  (List.cons.inj (bytesOf64_wordRegister a status addr1 val1 addr2 val2)).1

theorem registerOfWord_wordRegister (a : Byte) (status : BitVec 4) (addr1 : BitVec 10) (val1 : BitVec 16)
    (addr2 : BitVec 10) (val2 : BitVec 16) (auto1 auto2 err : Bool) :
    registerOfWord (wordRegister a status addr1 val1 addr2 val2) auto1 auto2 err =
      .register status addr1 val1 addr2 val2 auto1 auto2 err := by
  simp only [registerOfWord, wordRegister, Instr.register.injEq, ← BitVec.toNat_inj, BitVec.extractLsb'_toNat,
    Nat.shiftRight_eq_div_pow, toNat_append_eq_add, and_true]
  omega

/-! ## Words of two halves -/

theorem extractLsb'_words_high (s0 s1 : BitVec 32) : (s0 ++ s1 : BitVec 64).extractLsb' 32 32 = s0 :=
  BitVec.extractLsb'_append_eq_left

theorem extractLsb'_words_low (s0 s1 : BitVec 32) : (s0 ++ s1 : BitVec 64).extractLsb' 0 32 = s1 :=
  BitVec.extractLsb'_append_eq_right

theorem words_inj (s0 s1 t0 t1 : BitVec 32) :
    (s0 ++ s1 : BitVec 64) = (t0 ++ t1 : BitVec 64) ↔ s0 = t0 ∧ s1 = t1 := by
  simp only [← BitVec.toNat_inj, toNat_append_eq_add]
  omega

/-- The blank word is the sync word followed by 0 (R103, R109). -/
theorem wordBlank_eq_words (c : Config) : wordBlank c = syncWord c ++ 0#32 := by
  simp only [wordBlank, syncWord, ← BitVec.toNat_inj, toNat_append_eq_add, BitVec.toNat_ofNat]
  omega

/-- The first byte of a frame word is that of its first sub-frame. -/
theorem words_firstByte (s0 s1 : BitVec 32) :
    (s0 ++ s1 : BitVec 64).extractLsb' 56 8 = s0.extractLsb' 24 8 :=
  (List.cons.inj (bytesOf64_words s0 s1)).1

theorem syncWord_firstByte (c : Config) : (syncWord c).extractLsb' 24 8 = c.blankCode :=
  BitVec.extractLsb'_append_eq_left

/-! ## The word of a record -/

/-- The word a frame record is packed as (R221, R225, R228). -/
def frameWordOf (c : Config) : Instr → BitVec 64
  | .register status addr1 val1 addr2 val2 auto1 auto2 err =>
    wordRegister (auroraEnc c auto1 auto2 err) status addr1 val1 addr2 val2
  | .data sub0 sub1 => subPack c sub0 ++ subPack c sub1
  | _ => wordBlank c

theorem encode_data (c : Config) (sub0 sub1 : SubFrame) (h : sub1 ≠ .syncFill) :
    encode c (.data sub0 sub1) = bytesOf64 (subPack c sub0 ++ subPack c sub1) := by
  simp only [encode, packData, h, if_false, Option.getD_some]

theorem encode_eq_frameWordOf (c : Config) (i : Instr) (hi : i.wf = true) (hl : i.link = .data) :
    encode c i = bytesOf64 (frameWordOf c i) := by
  cases i with
  | data sub0 sub1 => exact encode_data c sub0 sub1 (bne_iff_ne.1 hi)
  | blank => rfl
  | register => rfl
  | _ => cases hl

/-! ## Sub-frames that come back -/

/-- In position 1 the one obstacle is a Hit that reads as a Header (R231 (c)). -/
theorem subUnpack_subPack_pos1 (c : Config) (hd : c.discWf = true) (s : SubFrame) (hs : s ≠ .syncFill) :
    subUnpack c (subPack c s) .pos1 = s ↔ subStable c .pos1 s = true := by
  rw [subUnpack_pos1]
  cases s with
  | header h => simp [isHeaderWord_subPack_header c hd h, headerOf_subPack, subStable]
  | hit x => cases hx : isHeaderWord c (subPack c (.hit x)) <;> simp [hitOf_subPack, subStable, headerLike_eq, hx]
  | syncFill => exact absurd rfl hs

/-- In position 0 a word that spells the sync word reads as SyncFill, whatever it was made of (R250). -/
theorem subUnpack_subPack_pos0 (c : Config) (hd : c.discWf = true) (s : SubFrame) :
    subUnpack c (subPack c s) .pos0 = s ↔ subStable c .pos0 s = true ∧ headerReadAsSync c s = false := by
  rw [subUnpack_pos0]
  cases s with
  | header h =>
    have hback := (subUnpack_subPack_pos1 c hd (.header h) nofun).2 rfl
    by_cases hsync : subPack c (.header h) = syncWord c <;> simp [hback, subStable, headerReadAsSync, hsync]
  | hit x =>
    have hback := subUnpack_subPack_pos1 c hd (.hit x) nofun
    by_cases hsync : subPack c (.hit x) = syncWord c <;>
      simp [hback, subStable, headerReadAsSync, syncLike, hsync]
  | syncFill => simp [subPack, subStable, headerReadAsSync]

/-! ## What each parser finds in a word -/

theorem unpackFrame_register_legal {c : Config} (hc : c.frameLen = 8) (w : BitVec 64) (rest : List Byte)
    (h : auroraLegal c (w.extractLsb' 56 8) = true) :
    unpackFrame c .register (bytesOf64 w ++ rest) =
      .got (registerOfWord w (auroraDec c (w.extractLsb' 56 8)).1 (auroraDec c (w.extractLsb' 56 8)).2.1
        (auroraDec c (w.extractLsb' 56 8)).2.2) 8 := by
  simp only [unpackFrame, unpackRegister, frameWord_bytesOf64 hc, hc, h, if_true]
  rfl

theorem unpackFrame_register_illegal {c : Config} (hc : c.frameLen = 8) (w : BitVec 64) (rest : List Byte)
    (h : auroraLegal c (w.extractLsb' 56 8) = false) :
    unpackFrame c .register (bytesOf64 w ++ rest) = .fail .noMatch := by
  simp only [unpackFrame, unpackRegister, frameWord_bytesOf64 hc, h, Bool.false_eq_true, if_false]

theorem unpackFrame_data_word {c : Config} (hc : c.frameLen = 8) (w : BitVec 64) (rest : List Byte) :
    unpackFrame c .data (bytesOf64 w ++ rest) =
      .got (.data (subUnpack c (w.extractLsb' 32 32) .pos0) (subUnpack c (w.extractLsb' 0 32) .pos1)) 8 := by
  simp only [unpackFrame, unpackData, frameWord_bytesOf64 hc, hc]

/-- The Register parser on a packed Register: the fields, and the flags without the auto flags of an error (R40). -/
theorem unpackFrame_register_encode (c : Config) (ha : c.auroraWf = true) (hc : c.frameLen = 8) (status : BitVec 4)
    (addr1 : BitVec 10) (val1 : BitVec 16) (addr2 : BitVec 10) (val2 : BitVec 16) (auto1 auto2 err : Bool)
    (rest : List Byte) :
    unpackFrame c .register (encode c (.register status addr1 val1 addr2 val2 auto1 auto2 err) ++ rest) =
      .got (.register status addr1 val1 addr2 val2 (auto1 && !err) (auto2 && !err) err) 8 := by
  have hcode := wordRegister_aurora (auroraEnc c auto1 auto2 err) status addr1 val1 addr2 val2
  have hgot := unpackFrame_register_legal hc (wordRegister (auroraEnc c auto1 auto2 err) status addr1 val1 addr2 val2)
    rest (by rw [hcode]; exact auroraLegal_auroraEnc c auto1 auto2 err)
  rw [hcode, auroraDec_auroraEnc c ha, registerOfWord_wordRegister] at hgot
  exact hgot

/-- Settles O40: each packed word is read back by its own parser, a Data word sub-frame by sub-frame. -/
theorem frameRecordsRoundTrip : Obligations.FrameRecordsRoundTrip := fun c rest h => by
  have hw := wellFormed_of_wf h
  refine ⟨?_, fun status addr1 val1 addr2 val2 auto1 auto2 err => ?_, fun sub0 sub1 hne => ?_⟩
  · exact (unpackFrame_blank hw.frameLen (wordBlank c) rest).trans (if_pos rfl)
  · exact unpackFrame_register_encode c hw.aurora hw.frameLen status addr1 val1 addr2 val2 auto1 auto2 err rest
  · rw [encode_data c sub0 sub1 hne, unpackFrame_data hw.frameLen, Parse.got.injEq, Instr.data.injEq,
      subUnpack_subPack_pos0 c hw.disc, subUnpack_subPack_pos1 c hw.disc sub1 hne]
    tauto

/-! ## What the channel finds in a word -/

/-- The record the probe order Register, Blank, Data finds in a frame word (R271). -/
def recordOfWord (c : Config) (w : BitVec 64) : Instr :=
  if auroraLegal c (w.extractLsb' 56 8) then
    registerOfWord w (auroraDec c (w.extractLsb' 56 8)).1 (auroraDec c (w.extractLsb' 56 8)).2.1
      (auroraDec c (w.extractLsb' 56 8)).2.2
  else if w = wordBlank c then .blank
  else .data (subUnpack c (w.extractLsb' 32 32) .pos0) (subUnpack c (w.extractLsb' 0 32) .pos1)

theorem probe_frame_word {c : Config} (ho : c.frameProbeOrder = [.register, .blank, .data]) (hc : c.frameLen = 8)
    (w : BitVec 64) (rest : List Byte) :
    probe c .frame (bytesOf64 w ++ rest) = .instr (recordOfWord c w) 8 := by
  simp only [probe, ho, probeIn, recordOfWord]
  cases ha : auroraLegal c (w.extractLsb' 56 8) with
  | true => simp only [unpackFrame_register_legal hc w rest ha, if_true]
  | false =>
    rw [unpackFrame_register_illegal hc w rest ha, unpackFrame_blank hc]
    by_cases hb : w = wordBlank c
    · simp only [hb, if_true, Bool.false_eq_true, if_false]
    · simp only [hb, if_false, unpackFrame_data_word hc, Bool.false_eq_true]

theorem frameClassify_word (c : Config) (w : BitVec 64) (rest : List Byte) :
    frameClassify c (bytesOf64 w ++ rest) = some (frameClassifyWord c w) := by
  rw [frameClassify, word64_bytesOf64, Option.map_some]

/-- Settles O34: the classifier makes the tests of the three parsers in their order. -/
theorem frameClassIsWhatTheChannelFinds : Obligations.FrameClassIsWhatTheChannelFinds := fun c bs ho hc h8 => by
  obtain ⟨w, rest, rfl⟩ := exists_bytesOf64_append bs h8
  refine ⟨recordOfWord c w, probe_frame_word ho hc w rest, ?_⟩
  simp only [frameClassify_word, frameClassifyWord, recordOfWord]
  by_cases ha : auroraLegal c (w.extractLsb' 56 8) = true
  · rw [if_pos ha, if_pos ha]; rfl
  · rw [if_neg ha, if_neg ha]
    by_cases hb : w = wordBlank c
    · rw [if_pos hb, if_pos hb]
    · rw [if_neg hb, if_neg hb]
      exact ⟨_, _, rfl, (fmtTag_subUnpack c _ _ .pos0 .pos1).trans (tagOfKinds_subClassify c _ _)⟩

end Sys2Proof

namespace Sys2Proof.Machine

/-- Settles O12: the record's word byte by byte, its first byte the code of the three flags. -/
theorem registerWritesEightBytes : Obligations.RegisterWritesEightBytes :=
  fun s status addr1 val1 addr2 val2 auto1 auto2 err hs => by
    refine exec_writing rfl hs ((bytesOf64_wordRegister _ status addr1 val1 addr2 val2).trans ?_)
    cases err <;> cases auto1 <;> cases auto2 <;> rfl

/-- Settles O13: the record's word is that of its two sub-frames. -/
theorem dataWritesTwoSubFrames : Obligations.DataWritesTwoSubFrames := fun s sub0 sub1 hne hs =>
  exec_writing (bne_iff_ne.2 hne) hs ((encode_data s.cfg sub0 sub1 hne).trans (bytesOf64_words _ _))

end Sys2Proof.Machine

/-! Which frame records a channel reads back (R275), and the register-like and blank-like frames of the defaults (R255). -/

namespace Sys2Proof

/-! ## Words of two sub-frames against the other frames -/

theorem words_eq_wordBlank_iff (c : Config) (s0 s1 : BitVec 32) :
    (s0 ++ s1 : BitVec 64) = wordBlank c ↔ s0 = syncWord c ∧ s1 = 0 := by
  rw [wordBlank_eq_words]
  exact words_inj s0 s1 (syncWord c) 0

/-- The word 0 is the word of the all-zero Hit alone among the Hits. -/
theorem subPack_hit_eq_zero_iff (c : Config) (x : Hit) :
    subPack c (.hit x) = 0 ↔ x = { ccol := 0, crow := 0, region := 0, tot0 := 0, tot1 := 0, tot2 := 0, tot3 := 0 } := by
  constructor
  · intro hword
    rw [← hitOf_subPack c x, hword]
    rfl
  · rintro rfl
    rfl

theorem blankLike_iff (sub0 sub1 : SubFrame) :
    blankLike sub0 sub1 = true ↔ sub0 = .syncFill ∧
      sub1 = .hit { ccol := 0, crow := 0, region := 0, tot0 := 0, tot1 := 0, tot2 := 0, tot3 := 0 } := by
  cases sub0 <;> cases sub1 <;> simp [blankLike]

/-! ## What comes back -/

theorem recordOfWord_wordBlank (c : Config) (ha : c.auroraWf = true) : recordOfWord c (wordBlank c) = .blank := by
  have hcode : (wordBlank c).extractLsb' 56 8 = c.blankCode := (List.cons.inj (bytesOf64_wordBlank c)).1
  rw [recordOfWord, hcode, auroraLegal_blankCode c ha, if_neg Bool.false_ne_true, if_pos rfl]

theorem recordOfWord_wordRegister (c : Config) (ha : c.auroraWf = true) (status : BitVec 4) (addr1 : BitVec 10)
    (val1 : BitVec 16) (addr2 : BitVec 10) (val2 : BitVec 16) (auto1 auto2 err : Bool) :
    recordOfWord c (wordRegister (auroraEnc c auto1 auto2 err) status addr1 val1 addr2 val2) =
      .register status addr1 val1 addr2 val2 (auto1 && !err) (auto2 && !err) err := by
  rw [recordOfWord, wordRegister_aurora, if_pos (auroraLegal_auroraEnc c auto1 auto2 err), auroraDec_auroraEnc c ha,
    registerOfWord_wordRegister]

/-- A Register comes back when no auto flag is lost to the error (R40). -/
theorem register_flags_eq_iff (auto1 auto2 err : Bool) :
    ((auto1 && !err) = auto1 ∧ (auto2 && !err) = auto2) ↔ registerCanonical auto1 auto2 err = true := by
  revert auto1 auto2 err
  decide

/-- A Data record comes back when its word is neither a Register's nor the blank word and both sub-frames come back. -/
theorem recordOfWord_words_iff (c : Config) (sub0 sub1 : SubFrame) :
    recordOfWord c (subPack c sub0 ++ subPack c sub1) = .data sub0 sub1 ↔
      auroraLegal c ((subPack c sub0).extractLsb' 24 8) = false ∧
        ¬ (subPack c sub0 = syncWord c ∧ subPack c sub1 = 0) ∧
        subUnpack c (subPack c sub0) .pos0 = sub0 ∧ subUnpack c (subPack c sub1) .pos1 = sub1 := by
  rw [recordOfWord, words_firstByte, extractLsb'_words_high, extractLsb'_words_low, ← words_eq_wordBlank_iff]
  cases auroraLegal c ((subPack c sub0).extractLsb' 24 8) with
  | true => simp [registerOfWord]
  | false =>
    rw [if_neg Bool.false_ne_true]
    split_ifs with hblank
    · simp [hblank]
    · simp [hblank]

theorem channelReadsBack_data_iff (c : Config) (sub0 sub1 : SubFrame) :
    channelReadsBack c (.data sub0 sub1) = true ↔
      subStable c .pos0 sub0 = true ∧ subStable c .pos1 sub1 = true ∧ registerLike c sub0 = false ∧
        blankLike sub0 sub1 = false ∧ headerCollides c sub0 sub1 = false := by
  simp only [channelReadsBack, channelStable, Bool.and_eq_true, Bool.not_eq_true', and_assoc]

/-- A first sub-frame that comes back: the two ways its word can be another frame's are the classes of R255 and log 34. -/
theorem word_isData_iff (c : Config) (ha : c.auroraWf = true) (sub0 sub1 : SubFrame) (hne : sub1 ≠ .syncFill)
    (hs : subStable c .pos0 sub0 = true) :
    (auroraLegal c ((subPack c sub0).extractLsb' 24 8) = false ∧
        ¬ (subPack c sub0 = syncWord c ∧ subPack c sub1 = 0) ∧ headerReadAsSync c sub0 = false) ↔
      registerLike c sub0 = false ∧ blankLike sub0 sub1 = false ∧ headerCollides c sub0 sub1 = false := by
  cases sub0 with
  | header h =>
    simp only [headerReadAsSync, registerLike, blankLike, headerCollides, Bool.or_eq_false_iff, beq_eq_false_iff_ne,
      ne_eq, true_and]
    exact ⟨fun ⟨hlegal, _, hsync⟩ => ⟨hsync, hlegal⟩, fun ⟨hsync, hlegal⟩ => ⟨hlegal, fun h => hsync h.1, hsync⟩⟩
  | hit x =>
    have hsync : subPack c (.hit x) ≠ syncWord c := by
      simp only [subStable, syncLike, Bool.and_eq_true, Bool.not_eq_true', beq_self_eq_true, Bool.true_and,
        beq_eq_false_iff_ne] at hs
      exact hs.2
    simp only [headerReadAsSync, registerLike, blankLike, headerCollides, hsync, false_and, not_false_eq_true, and_self,
      and_true]
  | syncFill =>
    have hlegal : auroraLegal c ((syncWord c).extractLsb' 24 8) = false := by
      rw [syncWord_firstByte, auroraLegal_blankCode c ha]
    have hself : subPack c .syncFill = syncWord c := rfl
    cases sub1 with
    | syncFill => exact absurd rfl hne
    | header h => simp only [hlegal, hself, headerReadAsSync, registerLike, blankLike, headerCollides,
        beq_eq_false_iff_ne, ne_eq, true_and, and_true]
    | hit x => simp only [hlegal, hself, subPack_hit_eq_zero_iff, headerReadAsSync, registerLike, blankLike,
        headerCollides, beq_eq_false_iff_ne, ne_eq, true_and, and_true]

/-- A Data record comes back exactly under the conditions of R275 and log 34. -/
theorem recordOfWord_data_iff (c : Config) (hw : WellFormed c) (sub0 sub1 : SubFrame) (hne : sub1 ≠ .syncFill) :
    recordOfWord c (subPack c sub0 ++ subPack c sub1) = .data sub0 sub1 ↔
      channelReadsBack c (.data sub0 sub1) = true := by
  rw [recordOfWord_words_iff, subUnpack_subPack_pos0 c hw.disc, subUnpack_subPack_pos1 c hw.disc sub1 hne,
    channelReadsBack_data_iff]
  constructor
  · rintro ⟨hlegal, hblank, ⟨hs0, hsync⟩, hs1⟩
    exact ⟨hs0, hs1, (word_isData_iff c hw.aurora sub0 sub1 hne hs0).1 ⟨hlegal, hblank, hsync⟩⟩
  · rintro ⟨hs0, hs1, hclasses⟩
    obtain ⟨hlegal, hblank, hsync⟩ := (word_isData_iff c hw.aurora sub0 sub1 hne hs0).2 hclasses
    exact ⟨hlegal, hblank, ⟨hs0, hsync⟩, hs1⟩

/-- The channel finds in a record's word the record itself exactly when it is one of those R275 and log 34 name. -/
theorem recordOfWord_frameWordOf_iff (c : Config) (hw : WellFormed c) (i : Instr) (hi : i.wf = true)
    (hl : i.link = .data) : recordOfWord c (frameWordOf c i) = i ↔ channelReadsBack c i = true := by
  cases i with
  | blank => exact iff_of_true (recordOfWord_wordBlank c hw.aurora) rfl
  | register status addr1 val1 addr2 val2 auto1 auto2 err =>
    rw [frameWordOf, recordOfWord_wordRegister c hw.aurora, Instr.register.injEq]
    simpa [channelReadsBack, channelStable] using register_flags_eq_iff auto1 auto2 err
  | data sub0 sub1 => exact recordOfWord_data_iff c hw sub0 sub1 (bne_iff_ne.1 hi)
  | _ => cases hl

/-! ## The defaults -/

theorem subPack_rd53a_header_ne_zero (h : Header) : subPack Config.rd53a (.header h) ≠ 0 := fun hword => by
  have hnum := subPack_header_toNat Config.rd53a h
  rw [hword] at hnum
  simp only [Config.rd53a, BitVec.toNat_ofNat, BitVec.ofNat_eq_ofNat] at hnum
  omega

/-- The default `HDR_ID` leaves a Header's first byte 2 or 3. -/
theorem subPack_rd53a_header_firstByte (h : Header) :
    ((subPack Config.rd53a (.header h)).extractLsb' 24 8).toNat = 2 + h.trigId.toNat / 16 := by
  have hid : Config.rd53a.hdrId.toNat = 1 := rfl
  rw [BitVec.extractLsb'_toNat, Nat.shiftRight_eq_div_pow, subPack_header_toNat, hid]
  omega

theorem subPack_rd53a_header_ne_syncWord (h : Header) : subPack Config.rd53a (.header h) ≠ syncWord Config.rd53a :=
  fun hword => by
    have hbyte := subPack_rd53a_header_firstByte h
    have hcode : ((syncWord Config.rd53a).extractLsb' 24 8).toNat = 30 := rfl
    rw [hword, hcode] at hbyte
    omega

theorem auroraLegal_rd53a_iff (a : Byte) :
    auroraLegal Config.rd53a a = true ↔ a.toNat = 180 ∨ a.toNat = 85 ∨ a.toNat = 153 ∨ a.toNat = 210 ∨ a.toNat = 204 := by
  rw [auroraLegal_iff]
  simp only [← BitVec.toNat_inj]
  rfl

theorem headerCollides_rd53a (sub0 sub1 : SubFrame) : headerCollides Config.rd53a sub0 sub1 = false := by
  cases sub0 with
  | header h =>
    have hlegal : auroraLegal Config.rd53a ((subPack Config.rd53a (.header h)).extractLsb' 24 8) = false := by
      rw [← Bool.not_eq_true, auroraLegal_rd53a_iff, subPack_rd53a_header_firstByte]
      omega
    simp only [headerCollides, headerReadAsSync, hlegal, Bool.or_false, beq_eq_false_iff_ne, ne_eq]
    exact subPack_rd53a_header_ne_syncWord h
  | hit x => rfl
  | syncFill =>
    cases sub1 with
    | header h => exact beq_eq_false_iff_ne.2 (subPack_rd53a_header_ne_zero h)
    | hit x => rfl
    | syncFill => rfl

theorem registerLike_rd53a_iff (x : Hit) :
    registerLike Config.rd53a (.hit x) = true ↔
      (x.ccol = 45 ∧ x.crow.toNat ≤ 15) ∨ (x.ccol = 21 ∧ 16 ≤ x.crow.toNat ∧ x.crow.toNat ≤ 31) ∨
        (x.ccol = 38 ∧ 16 ≤ x.crow.toNat ∧ x.crow.toNat ≤ 31) ∨ (x.ccol = 52 ∧ 32 ≤ x.crow.toNat ∧ x.crow.toNat ≤ 47) ∨
        (x.ccol = 51 ∧ x.crow.toNat ≤ 15) := by
  have hbyte : ((subPack Config.rd53a (.hit x)).extractLsb' 24 8).toNat = 4 * x.ccol.toNat + x.crow.toNat / 16 := by
    rw [BitVec.extractLsb'_toNat, Nat.shiftRight_eq_div_pow, subPack_hit_toNat]
    omega
  rw [registerLike, auroraLegal_rd53a_iff, hbyte]
  simp only [← BitVec.toNat_inj, BitVec.ofNat_eq_ofNat, BitVec.toNat_ofNat]
  omega

/-- The one Hit that spells the default sync word (R254). -/
theorem subPack_rd53a_hit_eq_syncWord_iff (x : Hit) :
    subPack Config.rd53a (.hit x) = syncWord Config.rd53a ↔
      x = { ccol := 7, crow := 32, region := 0, tot0 := 0, tot1 := 0, tot2 := 0, tot3 := 0 } := by
  rw [← syncLike_iff]
  exact (headerLikeHitsByWidth Config.rd53a x rfl rfl).2.2.2

theorem subPack_rd53a_eq_syncWord_iff (sub : SubFrame) :
    subPack Config.rd53a sub = syncWord Config.rd53a ↔ sub = .syncFill ∨
      sub = .hit { ccol := 7, crow := 32, region := 0, tot0 := 0, tot1 := 0, tot2 := 0, tot3 := 0 } := by
  cases sub with
  | header h => simp [subPack_rd53a_header_ne_syncWord h]
  | hit x => simp [subPack_rd53a_hit_eq_syncWord_iff]
  | syncFill => simp [subPack]

theorem subPack_rd53a_eq_zero_iff (sub : SubFrame) :
    subPack Config.rd53a sub = 0 ↔
      sub = .hit { ccol := 0, crow := 0, region := 0, tot0 := 0, tot1 := 0, tot2 := 0, tot3 := 0 } := by
  cases sub with
  | header h => exact iff_of_false (subPack_rd53a_header_ne_zero h) nofun
  | hit x => simpa using subPack_hit_eq_zero_iff Config.rd53a x
  | syncFill => exact iff_of_false (by decide) nofun

/-- The two Data records with the bytes of a BlankFrame. -/
theorem encode_rd53a_data_eq_blank_iff (sub0 sub1 : SubFrame) :
    encode Config.rd53a (.data sub0 sub1) = encode Config.rd53a .blank ↔
      (sub0 = .syncFill ∨
        sub0 = .hit { ccol := 7, crow := 32, region := 0, tot0 := 0, tot1 := 0, tot2 := 0, tot3 := 0 }) ∧
      sub1 = .hit { ccol := 0, crow := 0, region := 0, tot0 := 0, tot1 := 0, tot2 := 0, tot3 := 0 } := by
  by_cases hne : sub1 = .syncFill
  · subst hne
    exact iff_of_false (by simp [encode, packData, packBlank, bytesOf64]) (by simp)
  · have hinj : encode Config.rd53a (.data sub0 sub1) = encode Config.rd53a .blank ↔
        (subPack Config.rd53a sub0 ++ subPack Config.rd53a sub1 : BitVec 64) = wordBlank Config.rd53a := by
      rw [encode_data Config.rd53a sub0 sub1 hne]
      exact ⟨bytesOf64_injective _ _, congrArg bytesOf64⟩
    rw [hinj, words_eq_wordBlank_iff, subPack_rd53a_eq_syncWord_iff, subPack_rd53a_eq_zero_iff]

/-- Settles O36: the classes read off the fields' numbers; of the two records with a BlankFrame's bytes the sync-like Hit is
not stable in position 0. -/
theorem registerLikeAndBlankLikeFrames : Obligations.RegisterLikeAndBlankLikeFrames := by
  refine ⟨registerLike_rd53a_iff, fun _ => rfl, rfl, fun sub0 sub1 =>
    ⟨blankLike_iff sub0 sub1, encode_rd53a_data_eq_blank_iff sub0 sub1, ?_, headerCollides_rd53a sub0 sub1⟩⟩
  rw [encode_rd53a_data_eq_blank_iff, blankLike_iff]
  constructor
  · rintro ⟨⟨rfl | rfl, rfl⟩, hstable⟩
    · exact ⟨rfl, rfl⟩
    · exact absurd hstable (by decide)
  · rintro ⟨rfl, rfl⟩
    exact ⟨⟨.inl rfl, rfl⟩, rfl⟩

end Sys2Proof

/-! One probe round (R203, R271). A round with at most one parser that succeeds does not depend on the order. For the command
link, R7 (e) and (f) give that: each parser demands its own first bytes (`startsAs`), and no bytes begin in two of these ways. -/

namespace Sys2Proof

/-! ## A round as a search -/

section probeIn

variable {V : Type} (parser : V → Parse)

/-- The parsers before the first success only have to fail. -/
theorem probeIn_split (before after : List V) (v : V) (r : Instr) (n : Nat)
    (hb : ∀ u ∈ before, ∃ e, parser u = .fail e) (hv : parser v = .got r n) :
    probeIn parser (before ++ v :: after) = .instr r n := by
  induction before with
  | nil => simp only [List.nil_append, probeIn, hv]
  | cons u before ih =>
    obtain ⟨e, he⟩ := hb u (by simp)
    simp only [List.cons_append, probeIn, he]
    exact ih fun w hw => hb w (List.mem_cons_of_mem u hw)

/-- When one parser of the list succeeds and no other can, the round finds its record wherever it stands. -/
theorem probeIn_of_unique (vs : List V) (v : V) (r : Instr) (n : Nat) (hmem : v ∈ vs) (hv : parser v = .got r n)
    (hu : ∀ u r' n', parser u = .got r' n' → u = v) : probeIn parser vs = .instr r n := by
  cases hp : probeIn parser vs with
  | instr r' n' =>
    obtain ⟨u, -, hgot⟩ := probeIn_instr parser vs r' n' hp
    obtain rfl := hu u r' n' hgot
    rw [hv] at hgot
    cases hgot
    rfl
  | undecodable =>
    obtain ⟨e, he⟩ := (probeIn_undecodable parser vs).1 hp v hmem
    rw [hv] at he
    cases he

/-- The order changes nothing when no two parsers can both succeed. -/
theorem probeIn_perm {vs ws : List V} (hperm : vs.Perm ws)
    (hu : ∀ v r n u r' n', parser v = .got r n → parser u = .got r' n' → u = v) :
    probeIn parser vs = probeIn parser ws := by
  cases hp : probeIn parser ws with
  | instr r n =>
    obtain ⟨v, hmem, hgot⟩ := probeIn_instr parser ws r n hp
    exact probeIn_of_unique parser vs v r n (hperm.mem_iff.2 hmem) hgot fun u r' n' => hu v r n u r' n' hgot
  | undecodable =>
    rw [probeIn_undecodable] at hp ⊢
    exact fun v hv => hp v (hperm.mem_iff.1 hv)

end probeIn

/-! ## The first bytes a command parser demands -/

/-- The identifier of a variant as it stands on the link (R64, R65); Trigger has none. -/
def cmdId (c : Config) : CmdVariant → Option (Byte × Byte)
  | .cal => some (idLE c.idCal)
  | .ecr => some (idLE c.idEcr)
  | .bcr => some (idLE c.idBcr)
  | .pulse => some (idLE c.idPulse)
  | .rdreg => some (idLE c.idRdReg)
  | .wrreg => some (idLE c.idWrReg)
  | .noop => some (idLE c.idNoop)
  | .sync => some (idBE c.idSync)
  | .trigger => none

/-- Check (a) of R170: the bytes begin with the variant's identifier, or with a trigger pattern. -/
def startsAs (c : Config) (v : CmdVariant) (bs : List Byte) : Prop :=
  match cmdId c v with
  | some p => bs[0]? = some p.1 ∧ bs[1]? = some p.2
  | none => ∃ b ∈ c.trig.toList, bs[0]? = some b

theorem startsAs_of_afterId (c : Config) (v : CmdVariant) (p : Byte × Byte) (bs rest : List Byte)
    (hv : cmdId c v = some p) (h : afterId p bs = some rest) : startsAs c v bs := by
  rw [startsAs, hv, afterId_some p bs rest h]
  exact ⟨rfl, rfl⟩

theorem unpackPayload_got_afterId (c : Config) (id : BitVec 16) (k : Nat) (record : BitVec (5 * k) → Instr)
    (bs : List Byte) (r : Instr) (n : Nat) (h : unpackPayload c id k record bs = .got r n) :
    ∃ rest, afterId (idLE id) bs = some rest := by
  cases ha : afterId (idLE id) bs with
  | some rest => exact ⟨rest, rfl⟩
  | none => simp only [unpackPayload, ha, reduceCtorEq] at h

theorem unpackPlain_got_afterId (id : Byte × Byte) (rec : Instr) (bs : List Byte) (r : Instr) (n : Nat)
    (h : unpackPlain id rec bs = .got r n) : ∃ rest, afterId id bs = some rest := by
  cases ha : afterId id bs with
  | some rest => exact ⟨rest, rfl⟩
  | none => simp only [unpackPlain, ha, reduceCtorEq] at h

theorem unpackWrReg_got_afterId (c : Config) (bs : List Byte) (r : Instr) (n : Nat)
    (h : unpackWrReg c bs = .got r n) : ∃ rest, afterId (idLE c.idWrReg) bs = some rest := by
  cases ha : afterId (idLE c.idWrReg) bs with
  | some rest => exact ⟨rest, rfl⟩
  | none => simp only [unpackWrReg, ha, reduceCtorEq] at h

theorem unpackTrigger_got_startsAs (c : Config) (bs : List Byte) (r : Instr) (n : Nat)
    (h : unpackTrigger c bs = .got r n) : startsAs c .trigger bs := by
  cases bs with
  | nil => cases h
  | cons b rest =>
    refine ⟨b, ?_, rfl⟩
    by_contra hb
    rw [unpackTrigger_notPattern c b rest ((untrig_none_iff c b).2 hb)] at h
    cases h

/-- A parser that succeeds has passed check (a) of R170. -/
theorem startsAs_of_got (c : Config) (v : CmdVariant) (bs : List Byte) (r : Instr) (n : Nat)
    (h : unpackCommand c v bs = .got r n) : startsAs c v bs := by
  cases v with
  | ecr => obtain ⟨rest, ha⟩ := unpackPlain_got_afterId _ _ _ r n h; exact startsAs_of_afterId c .ecr _ _ _ rfl ha
  | bcr => obtain ⟨rest, ha⟩ := unpackPlain_got_afterId _ _ _ r n h; exact startsAs_of_afterId c .bcr _ _ _ rfl ha
  | noop => obtain ⟨rest, ha⟩ := unpackPlain_got_afterId _ _ _ r n h; exact startsAs_of_afterId c .noop _ _ _ rfl ha
  | sync => obtain ⟨rest, ha⟩ := unpackPlain_got_afterId _ _ _ r n h; exact startsAs_of_afterId c .sync _ _ _ rfl ha
  | pulse =>
    obtain ⟨rest, ha⟩ := unpackPayload_got_afterId c _ 2 pulseOfPayload _ r n h
    exact startsAs_of_afterId c .pulse _ _ _ rfl ha
  | cal =>
    obtain ⟨rest, ha⟩ := unpackPayload_got_afterId c _ 4 calOfPayload _ r n h
    exact startsAs_of_afterId c .cal _ _ _ rfl ha
  | rdreg =>
    obtain ⟨rest, ha⟩ := unpackPayload_got_afterId c _ 4 rdRegOfPayload _ r n h
    exact startsAs_of_afterId c .rdreg _ _ _ rfl ha
  | wrreg => obtain ⟨rest, ha⟩ := unpackWrReg_got_afterId c _ r n h; exact startsAs_of_afterId c .wrreg _ _ _ rfl ha
  | trigger => exact unpackTrigger_got_startsAs c bs r n h

/-! ## R7 (e) and (f) -/

/-- R7 (e) and (f) as they are used: an identifier's two bytes are in neither table, the tables are disjoint, and the
identifiers differ. -/
structure Separate (c : Config) : Prop where
  id_notMem : ∀ v p, cmdId c v = some p →
    (p.1 ∉ c.sym.toList ∧ p.2 ∉ c.sym.toList) ∧ p.1 ∉ c.trig.toList ∧ p.2 ∉ c.trig.toList
  sym_notMem_trig : ∀ b ∈ c.sym.toList, b ∉ c.trig.toList
  id_inj : ∀ u v p, cmdId c u = some p → cmdId c v = some p → u = v

/-- The variants with an identifier, in the order of `Config.idPairs`. -/
def idVariants : List CmdVariant := [.ecr, .bcr, .noop, .sync, .pulse, .cal, .rdreg, .wrreg]

theorem idVariants_map_cmdId (c : Config) : idVariants.map (cmdId c) = c.idPairs.map some := rfl

theorem cmdId_eq_none_iff (c : Config) (v : CmdVariant) : cmdId c v = none ↔ v = .trigger := by
  cases v <;> simp [cmdId]

theorem mem_idVariants_of_cmdId (c : Config) (v : CmdVariant) (p : Byte × Byte) (h : cmdId c v = some p) :
    v ∈ idVariants := by
  cases v with
  | trigger => cases h
  | _ => simp [idVariants]

theorem mem_idPairs_of_cmdId (c : Config) (v : CmdVariant) (p : Byte × Byte) (h : cmdId c v = some p) :
    p ∈ c.idPairs := by
  have hmem : some p ∈ c.idPairs.map some := by
    rw [← idVariants_map_cmdId, ← h]
    exact List.mem_map_of_mem (mem_idVariants_of_cmdId c v p h)
  simpa using hmem

theorem separate_of_separate {c : Config} (h : c.separate = true) : Separate c := by
  simp only [Config.separate, Config.bytesSeparate, Config.idsDistinct, Bool.and_eq_true, List.all_eq_true,
    Bool.not_eq_true', List.contains_eq_mem, decide_eq_false_iff_not, decide_eq_true_eq] at h
  obtain ⟨⟨hids, htables⟩, hnodup⟩ := h
  refine ⟨fun v p hv => ?_, htables, fun u v p hu hv => ?_⟩
  · obtain ⟨⟨⟨hs1, hs2⟩, ht1⟩, ht2⟩ := hids p (mem_idPairs_of_cmdId c v p hv)
    exact ⟨⟨hs1, hs2⟩, ht1, ht2⟩
  · have hmap : (idVariants.map (cmdId c)).Nodup := by
      rw [idVariants_map_cmdId]
      exact hnodup.map (Option.some_injective _)
    exact List.inj_on_of_nodup_map hmap (mem_idVariants_of_cmdId c u p hu) (mem_idVariants_of_cmdId c v p hv)
      (hu.trans hv.symm)

section separate

variable {c : Config} (hsep : Separate c)
include hsep

/-- No bytes begin in two ways (R207). -/
theorem startsAs_unique (u v : CmdVariant) (bs : List Byte) (hu : startsAs c u bs) (hv : startsAs c v bs) : u = v := by
  unfold startsAs at hu hv
  cases hidu : cmdId c u with
  | some p =>
    cases hidv : cmdId c v with
    | some q =>
      simp only [hidu] at hu
      simp only [hidv, hu.1, hu.2, Option.some.injEq] at hv
      obtain rfl : p = q := Prod.ext hv.1 hv.2
      exact hsep.id_inj u v p hidu hidv
    | none =>
      simp only [hidu] at hu
      simp only [hidv, hu.1, Option.some.injEq] at hv
      obtain ⟨b, hb, rfl⟩ := hv
      exact absurd hb (hsep.id_notMem u p hidu).2.1
  | none =>
    cases hidv : cmdId c v with
    | some q =>
      simp only [hidv] at hv
      simp only [hidu, hv.1, Option.some.injEq] at hu
      obtain ⟨b, hb, rfl⟩ := hu
      exact absurd hb (hsep.id_notMem v q hidv).2.1
    | none => rw [(cmdId_eq_none_iff c u).1 hidu, (cmdId_eq_none_iff c v).1 hidv]

theorem unpackCommand_got_unique (bs : List Byte) (v : CmdVariant) (r : Instr) (n : Nat) (u : CmdVariant) (r' : Instr)
    (n' : Nat) (hv : unpackCommand c v bs = .got r n) (hu : unpackCommand c u bs = .got r' n') : u = v :=
  startsAs_unique hsep u v bs (startsAs_of_got c u bs r' n' hu) (startsAs_of_got c v bs r n hv)

end separate

/-- The symbols are read by `SYM` alone. -/
theorem unsyms_congr {c d : Config} (h : c.sym = d.sym) (k : Nat) (bs : List Byte) : unsyms c k bs = unsyms d k bs := by
  induction k generalizing bs with
  | zero => rfl
  | succ k ih =>
    cases bs with
    | nil => rfl
    | cons b bs => simp only [unsyms, symDec, h, ih]

/-- No parser reads the probe order. -/
theorem unpackCommand_with_order (c : Config) (order : List CmdVariant) (v : CmdVariant) (bs : List Byte) :
    unpackCommand { c with cmdProbeOrder := order } v bs = unpackCommand c v bs := by
  have hsyms (k : Nat) (bs : List Byte) : unsyms { c with cmdProbeOrder := order } k bs = unsyms c k bs :=
    unsyms_congr (c := { c with cmdProbeOrder := order }) (d := c) rfl k bs
  cases v with
  | pulse => simp only [unpackCommand, unpackPulse, hsyms]
  | cal => simp only [unpackCommand, unpackCal, hsyms]
  | rdreg => simp only [unpackCommand, unpackRdReg, hsyms]
  | wrreg => simp only [unpackCommand, unpackWrReg, unpackWrRegSingle, unpackWrRegSextuple, hsyms]
  | _ => rfl

theorem mem_cmdOrderOfR202 (v : CmdVariant) : v ∈ cmdOrderOfR202 := by
  cases v <;> decide

theorem mem_cmdProbeOrder {c : Config} (hw : WellFormed c) (v : CmdVariant) : v ∈ c.cmdProbeOrder :=
  (List.isPerm_iff.1 hw.cmdOrder).mem_iff.2 (mem_cmdOrderOfR202 v)

/-- Settles O42: at most one of the nine parsers can succeed, so the round is the same in every order of them. -/
theorem probeOrderChangesNoResult : Obligations.ProbeOrderChangesNoResult := fun c order bs hc hsep hperm => by
  have hw := wellFormed_of_wf hc
  have hsame : order.Perm c.cmdProbeOrder :=
    (List.isPerm_iff.1 hperm).trans (List.isPerm_iff.1 hw.cmdOrder).symm
  simp only [probe, unpackCommand_with_order]
  exact probeIn_perm _ hsame (unpackCommand_got_unique (separate_of_separate hsep) bs)

theorem exists_commandVariant (i : Instr) (hl : i.link = .command) : ∃ v, commandVariant i = some v := by
  cases i with
  | blank | register | data | sym => cases hl
  | _ => exact ⟨_, rfl⟩

/-- The command channel reads what the encoder writes, whatever follows (R207, R181). -/
theorem probe_command_encode {c : Config} (hw : WellFormed c) (hsep : Separate c) (i : Instr) (hi : i.wf = true)
    (hl : i.link = .command) (rest : List Byte) :
    probe c .command (encode c i ++ rest) = .instr i (wireLen c i) := by
  obtain ⟨v, hv⟩ := exists_commandVariant i hl
  have hgot := unpackCommand_encode c i v rest hw.sym hw.trig hi hv
  exact probeIn_of_unique _ c.cmdProbeOrder v i (wireLen c i) (mem_cmdProbeOrder hw v) hgot fun u r' n' =>
    unpackCommand_got_unique hsep _ v i (wireLen c i) u r' n' hgot

/-- Settles O41: the record's own parser succeeds on its bytes, and no other parser can. -/
theorem commandDecoderReadsTheEncoder : Obligations.CommandDecoderReadsTheEncoder := fun _ i rest hc hsep hi hl =>
  probe_command_encode (wellFormed_of_wf hc) (separate_of_separate hsep) i hi hl rest

end Sys2Proof

/-! The streams (`43_command_channel.md` R200 to R210, `46_frame_channel.md` R270 to R275). A decode is an induction over the
bytes that remain: the end, a record found, a byte skipped (`decodeFrom_induction`); decoding what an encoder wrote is an
induction over its records (`decodeFrom_encodeStream`). -/

namespace Sys2Proof

theorem wireLen_of_data (c : Config) (i : Instr) (hl : i.link = .data) : wireLen c i = c.frameLen := by
  cases i with
  | blank | register | data => rfl
  | _ => cases hl

theorem wireLen_pos_of_command (c : Config) (i : Instr) (hl : i.link = .command) : 0 < wireLen c i := by
  cases i with
  | blank | register | data | sym => cases hl
  | _ => simp [wireLen]

namespace Machine

/-! ## One step of the pure decode -/

@[simp] theorem decodeFrom_nil (c : Config) (ch : Channel) (fuel pos : Nat) : decodeFrom c ch fuel pos [] = ([], []) := by
  cases fuel <;> rfl

theorem decodeFrom_found {c : Config} {ch : Channel} {bs : List Byte} {i : Instr} {n : Nat} (fuel pos : Nat)
    (hne : bs ≠ []) (h : probe c ch bs = .instr i n) :
    decodeFrom c ch (fuel + 1) pos bs =
      (i :: (decodeFrom c ch fuel (pos + n) (bs.drop n)).1, (decodeFrom c ch fuel (pos + n) (bs.drop n)).2) := by
  obtain ⟨b, bs, rfl⟩ := List.exists_cons_of_ne_nil hne
  simp only [decodeFrom, h]

theorem decodeFrom_skip {c : Config} {ch : Channel} {b : Byte} {bs : List Byte} (fuel pos : Nat)
    (h : probe c ch (b :: bs) = .undecodable) :
    decodeFrom c ch (fuel + 1) pos (b :: bs) =
      ((decodeFrom c ch fuel (pos + 1) bs).1, { pos := pos, byte := b } :: (decodeFrom c ch fuel (pos + 1) bs).2) := by
  simp only [decodeFrom, h]

/-- The induction of a decode, packaged once: what holds at the end of the buffer and is kept by a record found and by a
byte skipped holds of the whole, the steps being enough (R204, R274). -/
theorem decodeFrom_induction {c : Config} {ch : Channel} (hc : c.frameLen = 8)
    {P : Nat → List Byte → List Instr × List Skipped → Prop} (nil : ∀ pos, P pos [] ([], []))
    (found : ∀ pos bs i n r, probe c ch bs = .instr i n → GoodParse c ch.link bs i n → P (pos + n) (bs.drop n) r →
      P pos bs (i :: r.1, r.2))
    (skip : ∀ pos b bs r, probe c ch (b :: bs) = .undecodable → P (pos + 1) bs r →
      P pos (b :: bs) (r.1, { pos := pos, byte := b } :: r.2)) :
    ∀ fuel pos bs, bs.length ≤ fuel → P pos bs (decodeFrom c ch fuel pos bs) := by
  intro fuel
  induction fuel with
  | zero =>
    intro pos bs hlen
    obtain rfl := List.eq_nil_of_length_eq_zero (Nat.le_zero.1 hlen)
    exact nil pos
  | succ fuel ih =>
    intro pos bs hlen
    cases bs with
    | nil => exact nil pos
    | cons b bs =>
      cases hp : probe c ch (b :: bs) with
      | instr i n =>
        have g := probe_instr c ch (b :: bs) i n hc hp
        have hdrop : ((b :: bs).drop n).length ≤ fuel := by
          have hpos := g.pos
          rw [List.length_drop]
          omega
        rw [decodeFrom_found fuel pos (List.cons_ne_nil b bs) hp]
        exact found pos (b :: bs) i n _ hp g (ih _ _ hdrop)
      | undecodable =>
        rw [decodeFrom_skip fuel pos hp]
        exact skip pos b bs _ hp (ih _ _ (Nat.le_of_succ_le_succ hlen))

theorem decodeStream_induction {c : Config} {ch : Channel} (hc : c.frameLen = 8)
    {P : Nat → List Byte → List Instr × List Skipped → Prop} (nil : ∀ pos, P pos [] ([], []))
    (found : ∀ pos bs i n r, probe c ch bs = .instr i n → GoodParse c ch.link bs i n → P (pos + n) (bs.drop n) r →
      P pos bs (i :: r.1, r.2))
    (skip : ∀ pos b bs r, probe c ch (b :: bs) = .undecodable → P (pos + 1) bs r →
      P pos (b :: bs) (r.1, { pos := pos, byte := b } :: r.2)) (buf : List Byte) :
    P 0 buf (decodeStream c ch buf) :=
  decodeFrom_induction hc nil found skip buf.length 0 buf (Nat.le_refl _)

/-! ## Every byte is accounted for -/

/-- What a decode of `bs` that stands at offset `pos` has told of them (R205, R274, R287). -/
structure Accounts (c : Config) (pos : Nat) (bs : List Byte) (r : List Instr × List Skipped) : Prop where
  sum : bs.length = totalLen c r.1 + r.2.length
  rising : (r.2.map Skipped.pos).Pairwise (· < ·)
  byte : ∀ e ∈ r.2, pos ≤ e.pos ∧ bs[e.pos - pos]? = some e.byte

theorem Accounts.nil (c : Config) (pos : Nat) : Accounts c pos [] ([], []) :=
  ⟨rfl, List.Pairwise.nil, nofun⟩

theorem Accounts.found {c : Config} {l : Link} {pos : Nat} {bs : List Byte} {i : Instr} {n : Nat}
    {r : List Instr × List Skipped} (g : GoodParse c l bs i n) (h : Accounts c (pos + n) (bs.drop n) r) :
    Accounts c pos bs (i :: r.1, r.2) := by
  refine ⟨?_, h.rising, fun e he => ?_⟩
  · have hsum := h.sum
    have hfits := g.fits
    rw [List.length_drop] at hsum
    simp only [totalLen, List.map_cons, List.sum_cons, ← g.len] at hsum ⊢
    omega
  · obtain ⟨hpos, hbyte⟩ := h.byte e he
    rw [List.getElem?_drop, show n + (e.pos - (pos + n)) = e.pos - pos by omega] at hbyte
    exact ⟨by omega, hbyte⟩

theorem Accounts.skip {c : Config} {pos : Nat} {b : Byte} {bs : List Byte} {r : List Instr × List Skipped}
    (h : Accounts c (pos + 1) bs r) : Accounts c pos (b :: bs) (r.1, { pos := pos, byte := b } :: r.2) := by
  refine ⟨?_, ?_, fun e he => ?_⟩
  · have hsum := h.sum
    simp only [List.length_cons]
    omega
  · refine List.pairwise_cons.2 ⟨fun k hk => ?_, h.rising⟩
    obtain ⟨e, he, rfl⟩ := List.mem_map.1 hk
    exact (h.byte e he).1
  · rcases List.mem_cons.1 he with rfl | he
    · simp
    · obtain ⟨hpos, hbyte⟩ := h.byte e he
      rw [show e.pos - pos = e.pos - (pos + 1) + 1 by omega, List.getElem?_cons_succ]
      exact ⟨by omega, hbyte⟩

theorem decodeStream_accounts (c : Config) (ch : Channel) (buf : List Byte) (hc : c.frameLen = 8) :
    Accounts c 0 buf (decodeStream c ch buf) :=
  decodeStream_induction hc (Accounts.nil c) (fun _ _ _ _ _ _ g h => h.found g) (fun _ _ _ _ _ h => h.skip) buf

/-- Settles O46: by the induction of a decode, the offsets counted from the start of the buffer. -/
theorem decodeAccountsForEveryByte : Obligations.DecodeAccountsForEveryByte := fun c ch buf hc => by
  have h := decodeStream_accounts c ch buf hc
  exact ⟨h.sum, h.rising, fun e he => (h.byte e he).2⟩

/-! ## A frame for every eight bytes -/

theorem mem_frameProbeOrder {c : Config} (hw : WellFormed c) (v : FrameVariant) : v ∈ c.frameProbeOrder :=
  (List.isPerm_iff.1 hw.frameOrder).mem_iff.2 (by cases v <;> decide)

/-- In any order of the three parsers Data is one, and with eight bytes it does not fail (R229). -/
theorem length_lt_of_probe_frame_undecodable {c : Config} (hw : WellFormed c) (bs : List Byte)
    (h : probe c .frame bs = .undecodable) : bs.length < 8 := by
  by_contra hlong
  obtain ⟨w, rest, rfl⟩ := exists_bytesOf64_append bs (Nat.le_of_not_lt hlong)
  obtain ⟨e, he⟩ := (probeIn_undecodable _ _).1 h .data (mem_frameProbeOrder hw .data)
  rw [unpackFrame_data_word hw.frameLen] at he
  cases he

/-- Settles O45: a record found takes 8 bytes, and a byte is skipped only where fewer than 8 are left. -/
theorem frameDecodeCountsFrames : Obligations.FrameDecodeCountsFrames := fun c buf h => by
  have hw := wellFormed_of_wf h
  refine decodeStream_induction (P := fun _ bs r => r.1.length = bs.length / 8 ∧ r.2.length = bs.length % 8)
    hw.frameLen (fun _ => ⟨rfl, rfl⟩) ?found ?skip buf
  case found =>
    rintro pos bs i n r - g ⟨hout, hdiag⟩
    have hn : n = 8 := by rw [g.len, wireLen_of_data c i g.link, hw.frameLen]
    have hfits := g.fits
    rw [List.length_drop] at hout hdiag
    simp only [List.length_cons]
    omega
  case skip =>
    rintro pos b bs r hp ⟨hout, hdiag⟩
    have hshort := length_lt_of_probe_frame_undecodable hw (b :: bs) hp
    simp only [List.length_cons] at hshort ⊢
    omega

/-! ## Decoding what was encoded -/

theorem encodeStream_cons (c : Config) (i : Instr) (seq : List Instr) :
    encodeStream c (i :: seq) = encode c i ++ encodeStream c seq := rfl

/-- Where each record's bytes, whatever follows, are found as a record of the same length, a stream of records is decoded
record by record. -/
theorem decodeFrom_encodeStream (c : Config) (ch : Channel) (found : Instr → Instr) (seq : List Instr)
    (h : ∀ i ∈ seq, 0 < (encode c i).length ∧
      ∀ rest, probe c ch (encode c i ++ rest) = .instr (found i) (encode c i).length)
    (fuel pos : Nat) (hfuel : (encodeStream c seq).length ≤ fuel) :
    decodeFrom c ch fuel pos (encodeStream c seq) = (seq.map found, []) := by
  induction seq generalizing fuel pos with
  | nil => exact decodeFrom_nil c ch fuel pos
  | cons i seq ih =>
    obtain ⟨hpos, hprobe⟩ := h i (by simp)
    rw [encodeStream_cons, List.length_append] at hfuel
    obtain ⟨fuel, rfl⟩ : ∃ k, fuel = k + 1 := ⟨fuel - 1, by omega⟩
    have hne : encode c i ++ encodeStream c seq ≠ [] := by
      rw [← List.length_pos_iff, List.length_append]
      omega
    rw [encodeStream_cons, decodeFrom_found fuel pos hne (hprobe _), List.drop_left,
      ih (fun j hj => h j (List.mem_cons_of_mem i hj)) fuel _ (by omega)]
    rfl

theorem decodeStream_encodeStream (c : Config) (ch : Channel) (found : Instr → Instr) (seq : List Instr)
    (h : ∀ i ∈ seq, 0 < (encode c i).length ∧
      ∀ rest, probe c ch (encode c i ++ rest) = .instr (found i) (encode c i).length) :
    decodeStream c ch (encodeStream c seq) = (seq.map found, []) :=
  decodeFrom_encodeStream c ch found seq h _ 0 (Nat.le_refl _)

theorem mem_seqWf {ch : Channel} {seq : List Instr} (h : seqWf ch seq = true) {i : Instr} (hi : i ∈ seq) :
    i.wf = true ∧ i.link = ch.link := by
  have := List.all_eq_true.1 h i hi
  simpa using this

/-- Settles O43: every record of the stream is found as itself. -/
theorem commandStreamsRoundTrip : Obligations.CommandStreamsRoundTrip := fun c seq hc hsep hseq => by
  have hw := wellFormed_of_wf hc
  have hfound : ∀ i ∈ seq, 0 < (encode c i).length ∧
      ∀ rest, probe c .command (encode c i ++ rest) = .instr (id i) (encode c i).length := fun i hi => by
    obtain ⟨hwf, hl⟩ := mem_seqWf hseq hi
    rw [encode_length c i hw.frameLen hwf]
    exact ⟨wireLen_pos_of_command c i hl, probe_command_encode hw (separate_of_separate hsep) i hwf hl⟩
  rw [decodeStream_encodeStream c .command id seq hfound, List.map_id]

/-- Whatever the frame records are, their stream is decoded to as many records, each what its own word spells. -/
theorem decodeStream_frame (c : Config) (hc : c.frameLen = 8) (ho : c.frameProbeOrder = [.register, .blank, .data])
    (seq : List Instr) (hseq : seqWf .frame seq = true) :
    decodeStream c .frame (encodeStream c seq) = (seq.map fun i => recordOfWord c (frameWordOf c i), []) := by
  refine decodeStream_encodeStream c .frame _ seq fun i hi => ?_
  obtain ⟨hwf, hl⟩ := mem_seqWf hseq hi
  rw [encode_eq_frameWordOf c i hwf hl, bytesOf64_length]
  exact ⟨by omega, probe_frame_word ho hc _⟩

/-- Settles O44: the decoded stream is the records the words spell, and a word spells its own record exactly when the record
is one that R275 and log 34 let through. -/
theorem frameStreamsRoundTripIffStable : Obligations.FrameStreamsRoundTripIffStable := fun c seq hc ho hseq => by
  have hw := wellFormed_of_wf hc
  have hback (i : Instr) (hi : i ∈ seq) :
      recordOfWord c (frameWordOf c i) = i ↔ channelReadsBack c i = true := by
    obtain ⟨hwf, hl⟩ := mem_seqWf hseq hi
    exact recordOfWord_frameWordOf_iff c hw i hwf hl
  rw [decodeStream_frame c hw.frameLen ho seq hseq]
  refine ⟨?_, List.length_map .., rfl, fun k i hk hstable => ?_⟩
  · have hmap : (seq.map fun i => recordOfWord c (frameWordOf c i)) = seq ↔
        ∀ i ∈ seq, recordOfWord c (frameWordOf c i) = i := by
      simpa using List.map_inj_left (l := seq) (g := id)
    rw [Prod.mk.injEq, hmap, List.all_eq_true, and_iff_left rfl]
    exact forall₂_congr hback
  · rw [List.getElem?_map, hk, Option.map_some, (hback i (List.mem_of_getElem? hk)).2 hstable]

end Machine
end Sys2Proof

/-! A command cut short by the end of the buffer (R206). At its first byte no parser can succeed: a success would stand with
the missing bytes put back (`unpackCommand_append`), where the record's own parser takes more bytes than there are. At its later
bytes no parser's first bytes stand, by R7 (e). -/

namespace Sys2Proof

/-! ## A success stands when more bytes follow -/

theorem afterId_append (p : Byte × Byte) (bs rest more : List Byte) (h : afterId p bs = some rest) :
    afterId p (bs ++ more) = some (rest ++ more) := by
  rw [afterId_some p bs rest h, List.cons_append, List.cons_append, afterId_cons]

theorem unsyms_append (c : Config) (k : Nat) (bs more : List Byte) (gs : List Group) (h : unsyms c k bs = some gs) :
    unsyms c k (bs ++ more) = some gs := by
  induction k generalizing bs gs with
  | zero => exact h
  | succ k ih =>
    cases bs with
    | nil => cases h
    | cons b bs =>
      cases hb : symDec c b with
      | none => simp only [unsyms, hb, reduceCtorEq] at h
      | some v =>
        cases hk : unsyms c k bs with
        | none => simp only [unsyms, hb, hk, reduceCtorEq] at h
        | some vs =>
          simp only [unsyms, hb, hk] at h
          simp only [List.cons_append, unsyms, hb, ih bs vs hk, h]

section append

variable (c : Config) (bs more : List Byte) (r : Instr) (n : Nat)

theorem unpackPlain_append (id : Byte × Byte) (rec : Instr) (h : unpackPlain id rec bs = .got r n) :
    unpackPlain id rec (bs ++ more) = .got r n := by
  obtain ⟨rest, ha⟩ := unpackPlain_got_afterId id rec bs r n h
  simp only [unpackPlain, ha] at h
  simp only [unpackPlain, afterId_append id bs rest more ha, h]

theorem unpackPayload_append (id : BitVec 16) (k : Nat) (record : BitVec (5 * k) → Instr)
    (h : unpackPayload c id k record bs = .got r n) : unpackPayload c id k record (bs ++ more) = .got r n := by
  obtain ⟨rest, ha⟩ := unpackPayload_got_afterId c id k record bs r n h
  simp only [unpackPayload, ha] at h
  split at h
  next => cases h
  next hlen =>
    cases hk : unsyms c k rest with
    | none => simp only [hk, reduceCtorEq] at h
    | some gs =>
      simp only [hk] at h
      simp only [unpackPayload, afterId_append _ bs rest more ha, unsyms_append c k rest more gs hk, h]
      exact if_neg (by rw [List.length_append]; omega)

theorem unpackWrRegSingle_append (h : unpackWrRegSingle c bs = .got r n) :
    unpackWrRegSingle c (bs ++ more) = .got r n := by
  cases hk : unsyms c 6 bs with
  | none => simp only [unpackWrRegSingle, hk, reduceCtorEq] at h
  | some gs =>
    simp only [unpackWrRegSingle, hk] at h
    simp only [unpackWrRegSingle, unsyms_append c 6 bs more gs hk, h]

theorem unpackWrRegSextuple_append (h : unpackWrRegSextuple c bs = .got r n) :
    unpackWrRegSextuple c (bs ++ more) = .got r n := by
  cases hk : unsyms c 22 bs with
  | none => simp only [unpackWrRegSextuple, hk, reduceCtorEq] at h
  | some gs =>
    simp only [unpackWrRegSextuple, hk] at h
    simp only [unpackWrRegSextuple, unsyms_append c 22 bs more gs hk, h]

/-- Both forms of WrReg: the mode bit is read from the same symbol. -/
theorem unpackWrReg_append (h : unpackWrReg c bs = .got r n) : unpackWrReg c (bs ++ more) = .got r n := by
  obtain ⟨rest, ha⟩ := unpackWrReg_got_afterId c bs r n h
  simp only [unpackWrReg, ha] at h
  simp only [unpackWrReg, afterId_append _ bs rest more ha, List.length_append]
  split at h
  next => cases h
  next hlen =>
    rw [if_neg (by omega)]
    split at h
    next g0 hg =>
      simp only [unsyms_append c 1 rest more [g0] hg]
      split at h
      next hmode =>
        rw [if_pos hmode]
        split at h
        next => cases h
        next hlong =>
          rw [if_neg (by omega)]
          exact unpackWrRegSextuple_append c rest more r n h
      next hmode =>
        rw [if_neg hmode]
        exact unpackWrRegSingle_append c rest more r n h
    next => cases h

theorem unpackTrigger_append (h : unpackTrigger c bs = .got r n) : unpackTrigger c (bs ++ more) = .got r n := by
  match bs, h with
  | [], h => cases h
  | [b0], h =>
    cases hb : untrig c b0 with
    | none => simp only [unpackTrigger, hb, reduceCtorEq] at h
    | some bc => simp only [unpackTrigger, hb, reduceCtorEq] at h
  | _ :: _ :: _, h => exact h

/-- A parser's success depends on no byte beyond those there are (R170). -/
theorem unpackCommand_append (v : CmdVariant) (h : unpackCommand c v bs = .got r n) :
    unpackCommand c v (bs ++ more) = .got r n := by
  cases v with
  | ecr => exact unpackPlain_append bs more r n _ _ h
  | bcr => exact unpackPlain_append bs more r n _ _ h
  | noop => exact unpackPlain_append bs more r n _ _ h
  | sync => exact unpackPlain_append bs more r n _ _ h
  | pulse => exact unpackPayload_append c bs more r n c.idPulse 2 pulseOfPayload h
  | cal => exact unpackPayload_append c bs more r n c.idCal 4 calOfPayload h
  | rdreg => exact unpackPayload_append c bs more r n c.idRdReg 4 rdRegOfPayload h
  | wrreg => exact unpackWrReg_append c bs more r n h
  | trigger => exact unpackTrigger_append c bs more r n h

end append

/-! ## Bytes at which nothing starts -/

theorem probe_command_undecodable (c : Config) (bs : List Byte)
    (h : ∀ v r n, unpackCommand c v bs ≠ .got r n) : probe c .command bs = .undecodable := by
  refine (probeIn_undecodable _ _).2 fun v _ => ?_
  cases hv : unpackCommand c v bs with
  | got r n => exact absurd hv (h v r n)
  | fail e => exact ⟨e, rfl⟩

theorem probe_command_undecodable_of_startsAs (c : Config) (bs : List Byte) (h : ∀ v, ¬ startsAs c v bs) :
    probe c .command bs = .undecodable :=
  probe_command_undecodable c bs fun v r n hgot => h v (startsAs_of_got c v bs r n hgot)

section separate

variable {c : Config} (hsep : Separate c)
include hsep

/-- A symbol begins no command: it is no identifier's first byte and no pattern. -/
theorem not_startsAs_symbol (v : CmdVariant) (b : Byte) (rest : List Byte) (hb : b ∈ c.sym.toList) :
    ¬ startsAs c v (b :: rest) := by
  unfold startsAs
  cases hid : cmdId c v with
  | some q =>
    rintro ⟨hfirst, -⟩
    obtain rfl : b = q.1 := Option.some.inj hfirst
    exact (hsep.id_notMem v q hid).1.1 hb
  | none =>
    rintro ⟨_, htrig, hfirst⟩
    obtain rfl := Option.some.inj hfirst
    exact hsep.sym_notMem_trig b hb htrig

/-- An identifier's second byte, a symbol or nothing after it, begins no command. -/
theorem not_startsAs_idSecond (u v : CmdVariant) (p : Byte × Byte) (rest : List Byte) (hp : cmdId c u = some p)
    (hrest : ∀ b ∈ rest, b ∈ c.sym.toList) : ¬ startsAs c v (p.2 :: rest) := by
  unfold startsAs
  cases hid : cmdId c v with
  | some q =>
    rintro ⟨-, hsecond⟩
    exact (hsep.id_notMem v q hid).1.2 (hrest _ (List.mem_of_getElem? hsecond))
  | none =>
    rintro ⟨_, htrig, hfirst⟩
    obtain rfl := Option.some.inj hfirst
    exact (hsep.id_notMem u p hp).2.2 htrig

/-- A cut command is not found: with the missing bytes back, its own parser alone succeeds, and takes them all. -/
theorem probe_command_cut (hw : WellFormed c) (i : Instr) (hi : i.wf = true) (hl : i.link = .command) (k : Nat)
    (hk : k < wireLen c i) : probe c .command ((encode c i).take k) = .undecodable := by
  refine probe_command_undecodable c _ fun u r n hgot => ?_
  obtain ⟨v, hv⟩ := exists_commandVariant i hl
  have hfits := (unpackCommand_got c u _ r n hgot).2.fits
  have hwhole := unpackCommand_append c _ ((encode c i).drop k) r n u hgot
  have hown := unpackCommand_encode c i v [] hw.sym hw.trig hi hv
  rw [List.take_append_drop] at hwhole
  rw [List.append_nil] at hown
  obtain rfl := unpackCommand_got_unique hsep _ v i _ u r n hown hwhole
  rw [hown] at hwhole
  obtain ⟨-, rfl⟩ := Parse.got.inj hwhole
  rw [List.length_take] at hfits
  omega

end separate

/-! ## The bytes of a command -/

theorem mem_sym_of_mem_map {c : Config} {gs : List Group} {b : Byte} (h : b ∈ gs.map (symEnc c)) :
    b ∈ c.sym.toList := by
  obtain ⟨g, -, rfl⟩ := List.mem_map.1 h
  exact symEnc_mem c g

/-- Two bytes, then symbols; where symbols follow, the two are an identifier (R93). -/
theorem encode_command_shape (c : Config) (i : Instr) (hi : i.wf = true) (hl : i.link = .command) :
    ∃ p syms, encode c i = p.1 :: p.2 :: syms ∧ (∀ b ∈ syms, b ∈ c.sym.toList) ∧
      (syms = [] ∨ ∃ v, cmdId c v = some p) := by
  cases i with
  | ecr => exact ⟨idLE c.idEcr, [], rfl, nofun, .inl rfl⟩
  | bcr => exact ⟨idLE c.idBcr, [], rfl, nofun, .inl rfl⟩
  | noop => exact ⟨idLE c.idNoop, [], rfl, nofun, .inl rfl⟩
  | sync => exact ⟨idBE c.idSync, [], rfl, nofun, .inl rfl⟩
  | pulse => exact ⟨idLE c.idPulse, _, rfl, fun _ => mem_sym_of_mem_map, .inr ⟨.pulse, rfl⟩⟩
  | cal => exact ⟨idLE c.idCal, _, rfl, fun _ => mem_sym_of_mem_map, .inr ⟨.cal, rfl⟩⟩
  | rdreg => exact ⟨idLE c.idRdReg, _, rfl, fun _ => mem_sym_of_mem_map, .inr ⟨.rdreg, rfl⟩⟩
  | wrreg => exact ⟨idLE c.idWrReg, _, rfl, fun _ => mem_sym_of_mem_map, .inr ⟨.wrreg, rfl⟩⟩
  | wrreg6 => exact ⟨idLE c.idWrReg, _, rfl, fun _ => mem_sym_of_mem_map, .inr ⟨.wrreg, rfl⟩⟩
  | trigger bc tag =>
    obtain ⟨pattern, hpattern, -⟩ := trigOf_some c bc (bne_iff_ne.1 hi)
    exact ⟨(pattern, symEnc c tag), [], encode_trigger c bc tag pattern hpattern, nofun, .inl rfl⟩
  | blank | register | data | sym => cases hl

namespace Machine

/-- Where no byte begins a record, each byte is skipped. -/
theorem decodeFrom_all_skipped (c : Config) (ch : Channel) (bs : List Byte) (fuel pos : Nat)
    (h : ∀ j, j < bs.length → probe c ch (bs.drop j) = .undecodable) (hfuel : bs.length ≤ fuel) :
    decodeFrom c ch fuel pos bs = ([], (bs.zipIdx pos).map fun e => { pos := e.2, byte := e.1 }) := by
  induction bs generalizing fuel pos with
  | nil => exact decodeFrom_nil c ch fuel pos
  | cons b bs ih =>
    obtain ⟨fuel, rfl⟩ : ∃ k, fuel = k + 1 := ⟨fuel - 1, by rw [List.length_cons] at hfuel; omega⟩
    rw [decodeFrom_skip fuel pos (h 0 (Nat.succ_pos _)),
      ih fuel (pos + 1) (fun j hj => h (j + 1) (Nat.succ_lt_succ hj)) (Nat.le_of_succ_le_succ hfuel)]
    rfl

/-- At no place of a cut command does a record begin. -/
theorem probe_command_cut_drop {c : Config} (hsep : Separate c) (hw : WellFormed c) (i : Instr) (hi : i.wf = true)
    (hl : i.link = .command) (k : Nat) (hk : k < wireLen c i) (j : Nat) (hj : j < ((encode c i).take k).length) :
    probe c .command (((encode c i).take k).drop j) = .undecodable := by
  obtain ⟨p, syms, hbytes, hsyms, hshape⟩ := encode_command_shape c i hi hl
  have hlen := encode_length c i hw.frameLen hi
  match j with
  | 0 => exact probe_command_cut hsep hw i hi hl k hk
  | 1 =>
    rw [hbytes] at hj hlen ⊢
    simp only [List.length_take, List.length_cons] at hj hlen
    obtain ⟨m, rfl⟩ : ∃ m, k = m + 2 := ⟨k - 2, by omega⟩
    rcases hshape with rfl | ⟨v, hv⟩
    · rw [List.length_nil] at hlen
      omega
    · refine probe_command_undecodable_of_startsAs c _ fun u => ?_
      exact not_startsAs_idSecond hsep v u p (syms.take m) hv fun b hb => hsyms b (List.mem_of_mem_take hb)
  | j + 2 =>
    rw [hbytes] at hj ⊢
    obtain ⟨m, rfl⟩ : ∃ m, k = m + 2 := ⟨k - 2, by rw [List.length_take] at hj; omega⟩
    have hj' : j < (syms.take m).length := by simpa using hj
    have hdrop : ((p.1 :: p.2 :: syms).take (m + 2)).drop (j + 2) = (syms.take m).drop j := rfl
    rw [hdrop, List.drop_eq_getElem_cons hj']
    refine probe_command_undecodable_of_startsAs c _ fun u => ?_
    exact not_startsAs_symbol hsep u _ _ (hsyms _ (List.mem_of_mem_take (List.getElem_mem hj')))

/-- Settles O47: no byte of the cut command begins a record, so each is skipped. -/
theorem truncatedCommandIsSkippedWhole : Obligations.TruncatedCommandIsSkippedWhole :=
  fun c i k hc hsep hi hl hk =>
    decodeFrom_all_skipped c .command _ _ 0
      (probe_command_cut_drop (separate_of_separate hsep) (wellFormed_of_wf hc) i hi hl k hk) (Nat.le_refl _)

end Machine
end Sys2Proof

/-! What `exec` does in its two directions, and what it leaves alone (R200, R203, R63, R73); the statements about a single
record and about the state after reset. -/

namespace Sys2Proof.Machine

/-! ## The two directions of `exec` -/

/-- In a decode a record does nothing but advance the cursor and enter `out` (R203). -/
theorem exec_decoding {i : Instr} {s : State} (hi : i.wf = true) (hs : s.task.decoding = true) :
    exec i s = .next (accept i (wireLen s.cfg i) s) := by
  rw [exec_of_wf i s hi, perform_decoding _ _ _ _ hs]

theorem wf_of_exec_next {i : Instr} {s t : State} (h : exec i s = .next t) : i.wf = true := by
  cases hi : i.wf with
  | true => rfl
  | false =>
    rw [exec_of_not_wf i s hi] at h
    cases h

theorem eq_accept_of_exec_next {i : Instr} {s t : State} (hs : s.task.decoding = true) (h : exec i s = .next t) :
    t = accept i (wireLen s.cfg i) s := by
  rw [exec_decoding (wf_of_exec_next h) hs] at h
  cases h
  rfl

theorem eq_emit_of_exec_next {i : Instr} {s t : State} (hs : s.task.decoding = false) (h : exec i s = .next t) :
    t = emit (encode s.cfg i) s := by
  rw [exec_writing (wf_of_exec_next h) hs rfl] at h
  cases h
  rfl

/-- Settles O15: the number the statement lists is the record's wire length. -/
theorem decodedRecordsAdvanceTheCursor : Obligations.DecodedRecordsAdvanceTheCursor := fun s i hi hs => by
  have h := exec_decoding hi hs
  cases i <;> exact h

/-- Settles O16: a record that is written is `emit` of its encoding, and a buffer reads as written inside the bytes written
and as before outside. -/
theorem writingChangesOnlyItsBytes : Obligations.WritingChangesOnlyItsBytes := fun s t i hs h => by
  obtain rfl := eq_emit_of_exec_next hs h
  refine ⟨fun a ha => ?_, fun k hk => ?_, rfl⟩
  · rw [emit_outBuf, memRead_memWriteBytes, if_neg (by omega)]
  · rw [emit_outBuf, memRead_memWriteBytes, if_pos (by omega), Nat.add_sub_cancel_left]

/-- Settles O17: a record that is accepted is `accept`, which touches `pos` and `out` alone. -/
theorem acceptingChangesNoMemory : Obligations.AcceptingChangesNoMemory := fun s t i hs h => by
  obtain rfl := eq_accept_of_exec_next hs h
  exact ⟨fun _ => rfl, fun _ => rfl, rfl⟩

/-- Settles O14: a symbol's encoding is its one table entry. -/
theorem symbolWritesItsTableEntry : Obligations.SymbolWritesItsTableEntry := fun s v hs =>
  ⟨symEnc s.cfg v, symEnc_getElem? s.cfg v, exec_writing (i := .sym v) rfl hs rfl⟩

/-- Settles O10: neither term is a record (`Instr.wf`), and `exec` refuses every such term. -/
theorem nonRecordsAreRefused : Obligations.NonRecordsAreRefused :=
  ⟨fun s tag => exec_of_not_wf (.trigger 0 tag) s rfl, fun s sub0 => exec_of_not_wf (.data sub0 .syncFill) s rfl⟩

/-! ## Reset, and words of the defaults -/

/-- Settles O1: the tables are well formed and every list of the state is empty. -/
theorem resetHasInvariant : Obligations.ResetHasInvariant := by
  unfold Obligations.ResetHasInvariant
  decide

/-- Settles O2: no channel is listed, and one that is not listed is empty. -/
theorem resetLeavesEveryChannelEmpty : Obligations.ResetLeavesEveryChannelEmpty := by
  refine ⟨fun ch id => ?_, rfl, rfl, rfl, rfl, rfl, rfl, rfl, rfl, rfl, rfl, rfl, rfl, rfl⟩
  cases ch <;> exact ⟨rfl, rfl⟩

/-- Settles O60: each word, run through the decoder. -/
theorem sampleWordsDecode : Obligations.SampleWordsDecode := by
  unfold Obligations.SampleWordsDecode
  decide

/-! ## A step by the running operation -/

theorem fetch_decode {s : State} {ch : Channel} {id : Nat} (ht : s.task = .decode ch id) :
    fetch s = decode s.cfg ch.link (window s) := by
  rw [fetch, ht]
  rfl

theorem fetch_unsyms {s : State} (ht : s.task = .unsyms) : fetch s = decode s.cfg .symbol (window s) := by
  rw [fetch, ht]
  rfl

/-- An admissible pack is of a record (R285). -/
theorem wf_of_admissible_pack {s : State} {i : Instr} (h : admissible s (.pack i) = true) : i.wf = true := by
  simp only [admissible, Bool.and_eq_true] at h
  exact h.1.1

/-- An admissible call, as the one step that begins it. -/
theorem step_admitted {s : State} {c : Call} {rest : List Call} (ht : s.task = .idle) (hc : s.calls = c :: rest)
    (ha : admissible s c = true) : step s = beginAdmitted c { s with calls := rest } := by
  rw [step_idle_call s c rest ht hc]
  exact beginCall_admitted c _ ((admissible_with_calls s rest c).trans ha)

/-- Settles O18: each clause is the equation of `step` for that operation, the record found or listed taken in. -/
theorem stepRunsTheDecodedInstruction : Obligations.StepRunsTheDecodedInstruction := by
  refine ⟨fun s ch id i n ht hp hd => ?_, fun s i n ht hp hd => ?_, fun s ch id i rest => step_encode_cons s ch id i rest,
    fun s i rest ht hc ha => ?_⟩
  · rw [step_decode_more s ch id ht hp, decodeStep, fetch_decode ht, hd]
  · rw [step_unsyms_more s ht hp, symbolStep, fetch_unsyms ht, hd]
  · have hi := wf_of_admissible_pack ha
    refine ⟨_, exec_writing hi rfl rfl, ?_⟩
    rw [step_admitted ht hc ha]
    exact packStep_of_wf i _ hi

/-- Settles O52: an idle machine takes the call off and answers it. -/
theorem rejectedCallChangesNothing : Obligations.RejectedCallChangesNothing := fun s c rest ht hc ha => by
  rw [step_idle_call s c rest ht hc, beginCall_rejected c _ ((admissible_with_calls s rest c).trans ha)]
  rfl

theorem fits_eq_false {m n : Nat} (h : m < n) : fits (some m) n = false := by
  simpa [fits] using h

/-- Settles O53: an encode beyond either capacity is not admissible. -/
theorem encodeBeyondCapacityIsRefused : Obligations.EncodeBeyondCapacityIsRefused :=
  fun s ch id seq rest m ht hc hbeyond => by
    refine rejectedCallChangesNothing s (.encode ch id seq) rest ht hc ?_
    rcases hbeyond with ⟨hmax, hlt⟩ | ⟨hmax, hlt⟩
    · simp only [admissible, encodable, hmax, fits_eq_false hlt, Bool.and_false]
    · simp only [admissible, encodable, hmax, fits_eq_false hlt, Bool.and_false, Bool.false_and]

end Sys2Proof.Machine

/-! What a step can do, said once (`Begins`, `StepsTo`), and the statements that follow from it case by case: R31 and R48, R296,
R293, R203, R271, R297. -/

namespace Sys2Proof.Machine

/-- What an admissible call can begin with: a channel operation or a symbol decode starts, a channel is emptied, a record
is packed, or a value is answered (R297, R313). -/
inductive Begins (s : State) : Call → State → Prop
  | encode (ch : Channel) (id : Nat) (seq : List Instr) :
    Begins s (.encode ch id seq) (startEncode (.encode ch id) seq (s.setChan ch id { s.chan ch id with seq := seq }))
  | encodeHeld (ch : Channel) (id : Nat) :
    Begins s (.encodeHeld ch id) (startEncode (.encode ch id) (s.chan ch id).seq s)
  | decode (ch : Channel) (id : Nat) (buf : List Byte) :
    Begins s (.decode ch id buf) (startDecode (.decode ch id) buf s)
  | unsyms (buf : List Byte) (q k : Nat) :
    Begins s (.unsyms buf q k) (startDecode .unsyms ((buf.drop q).take k) s)
  | clear (ch : Channel) (id : Nat) : Begins s (.clear ch id) (answer .done (s.setChan ch id Chan.empty))
  | pack (i : Instr) : Begins s (.pack i) (finishPack (emit (encode s.cfg i) (endTask s)))
  | answers (c : Call) (r : Ret) : Begins s c (answer r s)

theorem begins_of_beginAdmitted {c : Call} {s t : State} (ha : admissible s c = true)
    (h : beginAdmitted c s = .next t) : Begins s c t := by
  cases c with
  | encode ch id seq => cases h; exact .encode ch id seq
  | encodeHeld ch id => cases h; exact .encodeHeld ch id
  | decode ch id buf => cases h; exact .decode ch id buf
  | unsyms buf q k => cases h; exact .unsyms buf q k
  | clear ch id => cases h; exact .clear ch id
  | pack i =>
    have hpack : beginAdmitted (.pack i) s = _ := packStep_of_wf i s (wf_of_admissible_pack ha)
    rw [hpack] at h
    cases h
    exact .pack i
  | _ => cases h; exact .answers _ _

/-- Every way a step can go on, by the operation that runs. -/
inductive StepsTo (s : State) : State → Prop
  | wait (ht : s.task = .idle) (hc : s.calls = []) : StepsTo s s
  | reject (c : Call) (rest : List Call) (ht : s.task = .idle) (hc : s.calls = c :: rest)
    (ha : admissible s c = false) : StepsTo s (answer .rejected { s with calls := rest })
  | call (c : Call) (rest : List Call) (t : State) (ht : s.task = .idle) (hc : s.calls = c :: rest)
    (ha : admissible s c = true) (hb : Begins { s with calls := rest } c t) : StepsTo s t
  | encodeNext (ch : Channel) (id : Nat) (i : Instr) (rest : List Instr) (ht : s.task = .encode ch id)
    (hd : s.todo = i :: rest) (hi : i.wf = true) : StepsTo s (emit (encode s.cfg i) { s with todo := rest })
  | encodeEnd (ch : Channel) (id : Nat) (ht : s.task = .encode ch id) : StepsTo s (finishEncode ch id s)
  | decodeFound (ch : Channel) (id : Nat) (i : Instr) (n : Nat) (ht : s.task = .decode ch id) (hp : s.pos < s.inLen)
    (hf : probe s.cfg ch (window s) = .instr i n) : StepsTo s (accept i (wireLen s.cfg i) s)
  | decodeSkip (ch : Channel) (id : Nat) (b : Byte) (ht : s.task = .decode ch id) (hp : s.pos < s.inLen)
    (hf : probe s.cfg ch (window s) = .undecodable) (hb : memRead s.input s.pos = some b) : StepsTo s (takeSkip b s)
  | decodeEnd (ch : Channel) (id : Nat) (ht : s.task = .decode ch id) : StepsTo s (finishDecode ch id s)
  | symbolFound (v : Group) (ht : s.task = .unsyms) (hp : s.pos < s.inLen) : StepsTo s (accept (.sym v) 1 s)
  | symbolFail (ht : s.task = .unsyms) : StepsTo s (failUnsyms s)
  | symbolEnd (ht : s.task = .unsyms) : StepsTo s (finishUnsyms s)

theorem decode_link (c : Config) (ch : Channel) (bs : List Byte) : decode c ch.link bs = probe c ch bs := by
  cases ch <;> rfl

theorem stepsTo_of_decodeStep {s t : State} {ch : Channel} {id : Nat} (ht : s.task = .decode ch id)
    (hp : s.pos < s.inLen) (h : decodeStep s = .next t) : StepsTo s t := by
  have hs : s.task.decoding = true := by rw [ht]; rfl
  rw [decodeStep, fetch_decode ht, decode_link] at h
  cases hf : probe s.cfg ch (window s) with
  | instr i n =>
    rw [hf] at h
    obtain rfl := eq_accept_of_exec_next hs h
    exact .decodeFound ch id i n ht hp hf
  | undecodable =>
    simp only [hf] at h
    cases hb : memRead s.input s.pos with
    | none => simp only [hb, reduceCtorEq] at h
    | some b =>
      simp only [hb] at h
      cases h
      exact .decodeSkip ch id b ht hp hf hb

theorem stepsTo_of_symbolStep {s t : State} (ht : s.task = .unsyms) (hp : s.pos < s.inLen)
    (h : symbolStep s = .next t) : StepsTo s t := by
  rcases symbolStep_cases s ht with ⟨v, -, hstep⟩ | ⟨-, hstep⟩
  · rw [hstep] at h
    cases h
    exact .symbolFound v ht hp
  · rw [hstep] at h
    cases h
    exact .symbolFail ht

theorem stepsTo_of_beginCall {s t : State} {c : Call} {rest : List Call} (ht : s.task = .idle)
    (hc : s.calls = c :: rest) (h : beginCall c { s with calls := rest } = .next t) : StepsTo s t := by
  have hsame := admissible_with_calls s rest c
  cases ha : admissible s c with
  | false =>
    rw [beginCall_rejected c _ (hsame.trans ha)] at h
    cases h
    exact .reject c rest ht hc ha
  | true =>
    rw [beginCall_admitted c _ (hsame.trans ha)] at h
    exact .call c rest t ht hc ha (begins_of_beginAdmitted (hsame.trans ha) h)

/-- The one case analysis of `step`. -/
theorem stepsTo_of_step {s t : State} (h : step s = .next t) : StepsTo s t := by
  cases ht : s.task with
  | idle =>
    cases hc : s.calls with
    | nil =>
      rw [step_idle_wait s ht hc] at h
      cases h
      exact .wait ht hc
    | cons c rest =>
      rw [step_idle_call s c rest ht hc] at h
      exact stepsTo_of_beginCall ht hc h
  | encode ch id =>
    cases hd : s.todo with
    | nil =>
      rw [step_encode_nil s ch id ht hd] at h
      cases h
      exact .encodeEnd ch id ht
    | cons i rest =>
      rw [step_encode_cons s ch id i rest ht hd] at h
      have hs : s.task.decoding = false := by rw [ht]; rfl
      obtain rfl := eq_emit_of_exec_next (s := { s with todo := rest }) hs h
      exact .encodeNext ch id i rest ht hd (wf_of_exec_next h)
  | decode ch id =>
    by_cases hp : s.pos < s.inLen
    · rw [step_decode_more s ch id ht hp] at h
      exact stepsTo_of_decodeStep ht hp h
    · rw [step_decode_end s ch id ht hp] at h
      cases h
      exact .decodeEnd ch id ht
  | unsyms =>
    by_cases hp : s.pos < s.inLen
    · rw [step_unsyms_more s ht hp] at h
      exact stepsTo_of_symbolStep ht hp h
    · rw [step_unsyms_end s ht hp] at h
      cases h
      exact .symbolEnd ht

/-! ## What no step changes -/

@[simp] theorem finishEncode_cfg (ch : Channel) (id : Nat) (s : State) : (finishEncode ch id s).cfg = s.cfg := by
  simp [finishEncode]

@[simp] theorem finishDecode_cfg (ch : Channel) (id : Nat) (s : State) : (finishDecode ch id s).cfg = s.cfg := by
  simp [finishDecode]

theorem Begins.cfg_eq {s t : State} {c : Call} (h : Begins s c t) : t.cfg = s.cfg := by
  cases h with
  | encode => simp
  | clear => simp
  | _ => rfl

/-- Settles O58: in no case of a step is the configuration written. -/
theorem stepKeepsTheConfiguration : Obligations.StepKeepsTheConfiguration := fun s t h => by
  cases stepsTo_of_step h with
  | call c rest t ht hc ha hb => exact hb.cfg_eq
  | encodeEnd ch id => exact finishEncode_cfg ch id s
  | decodeEnd ch id => exact finishDecode_cfg ch id s
  | _ => rfl

theorem chan_setChan_of_not_same (s : State) {ch ch' : Channel} {id id' : Nat} (x : Chan)
    (h : ¬ (ch' = ch ∧ id' = id)) : (s.setChan ch' id' x).chan ch id = s.chan ch id := by
  refine chan_setChan_other s ch' ch id' id x ?_
  rw [eq_comm, eq_comm (a := id')] at h
  exact not_and_or.1 h

/-- A call leaves every channel but the one it encodes by or clears (R296). -/
theorem Begins.chan_eq {s t : State} {c : Call} (h : Begins s c t) (ch : Channel) (id : Nat)
    (hencode : ∀ seq, c ≠ .encode ch id seq) (hclear : c ≠ .clear ch id) : t.chan ch id = s.chan ch id := by
  cases h with
  | encode ch' id' seq => exact chan_setChan_of_not_same s _ fun ⟨hch, hid⟩ => hencode seq (by rw [hch, hid])
  | clear ch' id' => exact chan_setChan_of_not_same s _ fun ⟨hch, hid⟩ => hclear (by rw [hch, hid])
  | _ => rfl

/-- Settles O55: a channel is set only at the end of the operation that is about it, and by the two calls named. -/
theorem otherInstancesAreUntouched : Obligations.OtherInstancesAreUntouched :=
  fun s t ch id h hencode hdecode hcallEncode hcallClear => by
    cases stepsTo_of_step h with
    | call c rest t ht hc ha hb =>
      rw [hc] at hcallEncode hcallClear
      exact hb.chan_eq ch id (fun seq he => hcallEncode seq (congrArg some he)) fun he => hcallClear (congrArg some he)
    | encodeEnd ch' id' ht => exact chan_setChan_of_not_same s _ fun ⟨hch, hid⟩ => hencode (by rw [ht, hch, hid])
    | decodeEnd ch' id' ht => exact chan_setChan_of_not_same s _ fun ⟨hch, hid⟩ => hdecode (by rw [ht, hch, hid])
    | _ => rfl

end Sys2Proof.Machine

/-! The machine's invariant, field by field (`Invariant`), what it gives each operation, and that every step keeps it: the
statements about R203, R271, R204, R293 and R297, and the invariant itself. -/

namespace Sys2Proof.Machine

/-! ## The invariant taken apart -/

/-- The part of the invariant that outlives an operation: the configuration and the channels (R7, R47). -/
structure Stored (s : State) : Prop where
  cfg : s.cfg.wf = true
  cmdChans : chansWf .command s.cmdChans = true
  frmChans : chansWf .frame s.frmChans = true

/-- The fields of `State.inv`. -/
structure Invariant (s : State) : Prop extends Stored s where
  input : s.input.exact s.inLen = true
  pos_le : s.pos ≤ s.inLen
  output : s.outBuf.exact s.off = true
  task : taskWf s = true

theorem inv_iff (s : State) : s.inv = true ↔ Invariant s := by
  constructor
  · intro h
    simp only [State.inv, inputWf, outputWf, Bool.and_eq_true, decide_eq_true_eq] at h
    obtain ⟨⟨⟨⟨⟨hcfg, hcmd⟩, hfrm⟩, hinput, hpos⟩, houtput⟩, htask⟩ := h
    exact ⟨⟨hcfg, hcmd, hfrm⟩, hinput, hpos, houtput, htask⟩
  · rintro ⟨⟨hcfg, hcmd, hfrm⟩, hinput, hpos, houtput, htask⟩
    simp [State.inv, inputWf, outputWf, *]

theorem Stored.wellFormed {s : State} (h : Stored s) : WellFormed s.cfg := wellFormed_of_wf h.cfg

theorem Stored.chans {s : State} (h : Stored s) (ch : Channel) : chansWf ch (s.chans ch) = true := by
  cases ch
  · exact h.cmdChans
  · exact h.frmChans

/-- With nothing running there is no working state (R30 (3)). -/
theorem Invariant.endTask_eq {s : State} (h : Invariant s) (ht : s.task = .idle) : endTask s = s := by
  have := h.task
  simpa only [taskWf, ht, decide_eq_true_eq] using this

theorem taskWf_encode {s : State} {ch : Channel} {id : Nat} (ht : s.task = .encode ch id) :
    taskWf s = true ↔ seqWf ch s.todo = true := by
  rw [taskWf, ht]

theorem taskWf_decode {s : State} {ch : Channel} {id : Nat} (ht : s.task = .decode ch id) :
    taskWf s = true ↔ seqWf ch s.out = true ∧ s.pos = totalLen s.cfg s.out + s.diag.length := by
  simp only [taskWf, ht, accounted, Bool.and_eq_true, decide_eq_true_eq]

theorem taskWf_unsyms {s : State} (ht : s.task = .unsyms) :
    taskWf s = true ↔ ((s.out.all fun i => i.link == .symbol) = true ∧
      s.pos = totalLen s.cfg s.out + s.diag.length) ∧ s.diag = [] := by
  simp only [taskWf, ht, accounted, Bool.and_eq_true, decide_eq_true_eq, List.isEmpty_iff]

/-! ## The steps of a decode -/

section decode

variable {s : State} {ch : Channel} {id : Nat} (h : Invariant s) (ht : s.task = .decode ch id) (hp : s.pos < s.inLen)
include h ht hp

theorem step_of_probe_instr {i : Instr} {n : Nat} (hf : probe s.cfg ch (window s) = .instr i n) :
    GoodParse s.cfg ch.link (window s) i n ∧ step s = .next (accept i n s) := by
  rw [step_decode_more s ch id ht hp]
  rcases decodeStep_cases s ch id h.wellFormed.frameLen ht h.input hp with ⟨i', n', hf', g, hstep⟩ | ⟨b, hf', -, -⟩
  · rw [hf] at hf'
    cases hf'
    exact ⟨g, hstep⟩
  · rw [hf] at hf'
    cases hf'

theorem step_of_probe_undecodable (hf : probe s.cfg ch (window s) = .undecodable) :
    ∃ b, memRead s.input s.pos = some b ∧ step s = .next (takeSkip b s) := by
  rw [step_decode_more s ch id ht hp]
  rcases decodeStep_cases s ch id h.wellFormed.frameLen ht h.input hp with ⟨i, n, hf', -, -⟩ | ⟨b, -, hb, hstep⟩
  · rw [hf] at hf'
    cases hf'
  · exact ⟨b, hb, hstep⟩

end decode

/-- Settles O19: the probe round is the search along the order, and the step does what the round says. -/
theorem commandStepProbesInOrder : Obligations.CommandStepProbesInOrder := fun s id hs ht hp _ => by
  have h := (inv_iff s).1 hs
  refine ⟨fun before after v rec n horder hbefore hv => ?_, fun hall => ?_⟩
  · have hf : probe s.cfg .command (window s) = .instr rec n := by
      rw [probe, horder]
      exact probeIn_split _ before after v rec n hbefore hv
    exact (step_of_probe_instr h ht hp hf).2
  · exact step_of_probe_undecodable h ht hp ((probeIn_undecodable _ _).2 hall)

/-- Settles O20: as for the command channel; every frame record takes 8 bytes. -/
theorem frameStepProbesInOrder : Obligations.FrameStepProbesInOrder := fun s id hs ht hp _ => by
  have h := (inv_iff s).1 hs
  refine ⟨fun before after v rec n horder hbefore hv => ?_, fun hall => ?_⟩
  · have hf : probe s.cfg .frame (window s) = .instr rec n := by
      rw [probe, horder]
      exact probeIn_split _ before after v rec n hbefore hv
    obtain rfl : n = 8 := (unpackFrame_got s.cfg v _ rec n h.wellFormed.frameLen hv).2.1
    exact (step_of_probe_instr h ht hp hf).2
  · exact step_of_probe_undecodable h ht hp ((probeIn_undecodable _ _).2 hall)

/-- Settles O21: a record found lies inside the window, and a skip is one byte before the end. -/
theorem decodeStepMovesTheCursorForward : Obligations.DecodeStepMovesTheCursorForward :=
  fun s t ch id hs ht hp hstep => by
    have h := (inv_iff s).1 hs
    cases hf : probe s.cfg ch (window s) with
    | instr i n =>
      obtain ⟨g, hnext⟩ := step_of_probe_instr h ht hp hf
      rw [hnext] at hstep
      cases hstep
      have hfits := g.fits
      have hpos := g.pos
      rw [window_length s h.input] at hfits
      refine ⟨?_, ?_, rfl, rfl, rfl, .inl ⟨i, g.link, rfl, rfl, ?_⟩⟩
      · rw [accept_pos]; omega
      · rw [accept_pos]; omega
      · rw [accept_pos, g.len]
    | undecodable =>
      obtain ⟨b, hb, hnext⟩ := step_of_probe_undecodable h ht hp hf
      rw [hnext] at hstep
      cases hstep
      exact ⟨Nat.lt_succ_self _, hp, rfl, rfl, rfl, .inr ⟨b, hb, rfl, rfl, rfl⟩⟩

/-- Settles O57: an idle machine's call is answered or begins, the record an encode runs is one, and a decode's byte at the
cursor is there. -/
theorem noOperationFaultsOrSticks : Obligations.NoOperationFaultsOrSticks := fun s hs => by
  have h := (inv_iff s).1 hs
  cases ht : s.task with
  | idle =>
    cases hc : s.calls with
    | nil => exact ⟨s, step_idle_wait s ht hc⟩
    | cons c rest =>
      rw [step_idle_call s c rest ht hc]
      exact beginCall_next c _
  | encode ch id =>
    cases hd : s.todo with
    | nil => exact ⟨_, step_encode_nil s ch id ht hd⟩
    | cons i rest =>
      have htodo := (taskWf_encode ht).1 h.task
      rw [hd] at htodo
      have hi := (mem_seqWf htodo List.mem_cons_self).1
      rw [step_encode_cons s ch id i rest ht hd]
      exact ⟨_, exec_writing hi (by rw [ht]; rfl) rfl⟩
  | decode ch id =>
    by_cases hp : s.pos < s.inLen
    · cases hf : probe s.cfg ch (window s) with
      | instr i n => exact ⟨_, (step_of_probe_instr h ht hp hf).2⟩
      | undecodable =>
        obtain ⟨b, -, hnext⟩ := step_of_probe_undecodable h ht hp hf
        exact ⟨_, hnext⟩
    · exact ⟨_, step_decode_end s ch id ht hp⟩
  | unsyms =>
    by_cases hp : s.pos < s.inLen
    · rw [step_unsyms_more s ht hp]
      rcases symbolStep_cases s ht with ⟨v, -, hnext⟩ | ⟨-, hnext⟩
      · exact ⟨_, hnext⟩
      · exact ⟨_, hnext⟩
    · exact ⟨_, step_unsyms_end s ht hp⟩

/-! ## The channels stay well formed -/

theorem chansWf_iff (ch : Channel) (t : List (Nat × Chan)) :
    chansWf ch t = true ↔ rising t = true ∧ ∀ e ∈ t, e.2 ≠ Chan.empty ∧ chanWf ch e.2 = true := by
  simp only [chansWf, Bool.and_eq_true, List.all_eq_true, bne_iff_ne]

theorem chansWf_putChan {ch : Channel} {t : List (Nat × Chan)} {x : Chan} (id : Nat) (h : chansWf ch t = true)
    (hx : chanWf ch x = true) : chansWf ch (putChan t id x) = true := by
  rw [chansWf_iff] at h ⊢
  obtain ⟨hrising, hall⟩ := h
  refine ⟨rising_putChan t id x hrising, fun e he => ?_⟩
  unfold putChan at he
  split at he
  next => exact hall e (mem_dropKey t id e he)
  next hne =>
    rcases mem_putKey t id x e he with rfl | he
    · exact ⟨hne, hx⟩
    · exact hall e he

theorem chanWf_empty (ch : Channel) : chanWf ch Chan.empty = true := rfl

theorem Stored.chan_wf {s : State} (h : Stored s) (ch : Channel) (id : Nat) : chanWf ch (s.chan ch id) = true := by
  rw [State.chan]
  cases hf : findKey (s.chans ch) id with
  | none => exact chanWf_empty ch
  | some x => exact (((chansWf_iff ch _).1 (h.chans ch)).2 _ (findKey_mem _ id x hf)).2

theorem chanWf_iff (ch : Channel) (x : Chan) :
    chanWf ch x = true ↔ seqWf ch x.seq = true ∧ x.bytes.exact x.length = true := by
  rw [chanWf, Bool.and_eq_true]

theorem Stored.setChan {s : State} (h : Stored s) (ch : Channel) (id : Nat) (x : Chan) (hx : chanWf ch x = true) :
    Stored (s.setChan ch id x) := by
  cases ch with
  | command => exact ⟨h.cfg, chansWf_putChan id h.cmdChans hx, h.frmChans⟩
  | frame => exact ⟨h.cfg, h.cmdChans, chansWf_putChan id h.frmChans hx⟩

/-- The sequence of a channel replaced by records of its kind. -/
theorem Stored.setChan_seq {s : State} (h : Stored s) (ch : Channel) (id : Nat) (seq : List Instr)
    (hseq : seqWf ch seq = true) : Stored (s.setChan ch id { s.chan ch id with seq := seq }) :=
  h.setChan ch id _ ((chanWf_iff ch _).2 ⟨hseq, ((chanWf_iff ch _).1 (h.chan_wf ch id)).2⟩)

/-- The bytes of a channel replaced by a buffer without gaps. -/
theorem Stored.setChan_bytes {s : State} (h : Stored s) (ch : Channel) (id : Nat) (m : Memory) (n : Nat)
    (hm : m.exact n = true) : Stored (s.setChan ch id { s.chan ch id with bytes := m, length := n }) :=
  h.setChan ch id _ ((chanWf_iff ch _).2 ⟨((chanWf_iff ch _).1 (h.chan_wf ch id)).1, hm⟩)

/-! ## Where an operation ends or begins -/

/-- A machine with no working state has the invariant as soon as what it stores is well formed. -/
theorem invariant_of_endTask_eq {s : State} (h : Stored s) (he : endTask s = s) : Invariant s := by
  have htask : taskWf s = true := by
    rw [taskWf, ← he]
    exact decide_eq_true (endTask_endTask s)
  rw [← he] at htask ⊢
  exact ⟨⟨h.cfg, h.cmdChans, h.frmChans⟩, rfl, Nat.le_refl 0, rfl, htask⟩

theorem invariant_answer_endTask {s : State} (h : Stored s) (r : Ret) : Invariant (answer r (endTask s)) :=
  invariant_of_endTask_eq ⟨h.cfg, h.cmdChans, h.frmChans⟩ rfl

theorem invariant_startEncode {s : State} (h : Stored s) (ch : Channel) (id : Nat) (seq : List Instr)
    (hseq : seqWf ch seq = true) : Invariant (startEncode (.encode ch id) seq s) :=
  ⟨⟨h.cfg, h.cmdChans, h.frmChans⟩, rfl, Nat.le_refl 0, rfl, (taskWf_encode rfl).2 hseq⟩

theorem invariant_startDecode {s : State} (h : Stored s) (t : Task) (buf : List Byte)
    (ht : taskWf (startDecode t buf s) = true) : Invariant (startDecode t buf s) :=
  ⟨⟨h.cfg, h.cmdChans, h.frmChans⟩, Memory.exact_ofBytes buf, Nat.zero_le _, rfl, ht⟩

theorem seqWf_of_encodable {c : Config} {ch : Channel} {seq : List Instr} (h : encodable c ch seq = true) :
    seqWf ch seq = true := by
  simp only [encodable, Bool.and_eq_true] at h
  exact h.1.1

/-- A call begins on a machine with no working state and leaves one with the invariant. -/
theorem Begins.invariant {s t : State} {c : Call} (hb : Begins s c t) (h : Stored s) (he : endTask s = s)
    (ha : admissible s c = true) : Invariant t := by
  cases hb with
  | encode ch id seq =>
    have hseq := seqWf_of_encodable ha
    exact invariant_startEncode (h.setChan_seq ch id seq hseq) ch id seq hseq
  | encodeHeld ch id => exact invariant_startEncode h ch id _ (seqWf_of_encodable ha)
  | decode ch id buf => exact invariant_startDecode h _ buf ((taskWf_decode rfl).2 ⟨rfl, rfl⟩)
  | unsyms buf q k => exact invariant_startDecode h _ _ ((taskWf_unsyms rfl).2 ⟨⟨rfl, rfl⟩, rfl⟩)
  | clear ch id =>
    have hstored := h.setChan ch id Chan.empty (chanWf_empty ch)
    rw [← he]
    cases ch <;> exact invariant_answer_endTask hstored .done
  | pack i => exact invariant_answer_endTask (s := endTask s) ⟨h.cfg, h.cmdChans, h.frmChans⟩ _
  | answers c r =>
    rw [← he]
    exact invariant_answer_endTask h r

/-! ## Inside an operation -/

theorem seqWf_append {ch : Channel} {seq : List Instr} {i : Instr} (hseq : seqWf ch seq = true) (hi : i.wf = true)
    (hl : i.link = ch.link) : seqWf ch (seq ++ [i]) = true := by
  rw [seqWf] at hseq ⊢
  rw [List.all_append, hseq]
  simp [hi, hl]

theorem seqWf_tail {ch : Channel} {i : Instr} {seq : List Instr} (h : seqWf ch (i :: seq) = true) :
    seqWf ch seq = true := by
  simp only [seqWf, List.all_cons, Bool.and_eq_true] at h
  exact h.2

theorem totalLen_append_one (c : Config) (seq : List Instr) (i : Instr) :
    totalLen c (seq ++ [i]) = totalLen c seq + wireLen c i := by
  simp [totalLen]

theorem Invariant.accept {s : State} {ch : Channel} {id : Nat} {i : Instr} {n : Nat} (h : Invariant s)
    (ht : s.task = .decode ch id) (hp : s.pos < s.inLen) (g : GoodParse s.cfg ch.link (window s) i n) :
    Invariant (accept i (wireLen s.cfg i) s) := by
  obtain ⟨hout, hsum⟩ := (taskWf_decode ht).1 h.task
  have hfits := g.fits
  rw [window_length s h.input, g.len] at hfits
  refine ⟨⟨h.cfg, h.cmdChans, h.frmChans⟩, h.input, ?_, h.output,
    (taskWf_decode (s := Machine.accept i _ s) ht).2 ⟨seqWf_append hout g.wf g.link, ?_⟩⟩
  · rw [accept_pos, accept_inLen]
    omega
  · rw [accept_pos, accept_cfg, accept_out, accept_diag, totalLen_append_one]
    omega

theorem Invariant.takeSkip {s : State} {ch : Channel} {id : Nat} (h : Invariant s) (ht : s.task = .decode ch id)
    (hp : s.pos < s.inLen) (b : Byte) : Invariant (takeSkip b s) := by
  obtain ⟨hout, hsum⟩ := (taskWf_decode ht).1 h.task
  refine ⟨⟨h.cfg, h.cmdChans, h.frmChans⟩, h.input, hp, h.output,
    (taskWf_decode (s := Machine.takeSkip b s) ht).2 ⟨hout, ?_⟩⟩
  rw [takeSkip_pos, takeSkip_cfg, takeSkip_out, takeSkip_diag, List.length_append, List.length_singleton]
  omega

theorem Invariant.acceptSym {s : State} (h : Invariant s) (ht : s.task = .unsyms) (hp : s.pos < s.inLen) (v : Group) :
    Invariant (Machine.accept (.sym v) 1 s) := by
  obtain ⟨⟨hout, hsum⟩, hdiag⟩ := (taskWf_unsyms ht).1 h.task
  refine ⟨⟨h.cfg, h.cmdChans, h.frmChans⟩, h.input, hp, h.output,
    (taskWf_unsyms (s := Machine.accept (.sym v) 1 s) ht).2 ⟨⟨?_, ?_⟩, hdiag⟩⟩
  · rw [accept_out, List.all_append, hout]
    rfl
  · rw [accept_pos, accept_cfg, accept_out, accept_diag, totalLen_append_one, wireLen]
    omega

theorem Invariant.emitNext {s : State} {ch : Channel} {id : Nat} {i : Instr} {rest : List Instr} (h : Invariant s)
    (ht : s.task = .encode ch id) (hd : s.todo = i :: rest) (bs : List Byte) :
    Invariant (emit bs { s with todo := rest }) := by
  have htodo := (taskWf_encode ht).1 h.task
  rw [hd] at htodo
  exact ⟨⟨h.cfg, h.cmdChans, h.frmChans⟩, h.input, h.pos_le, Memory.exact_memWriteBytes s.outBuf s.off bs h.output,
    (taskWf_encode (s := emit bs { s with todo := rest }) ht).2 (seqWf_tail htodo)⟩

/-- Settles O56: case by case, an operation begins and ends with no working state left over, and inside it a step keeps the
account of what it has read or written. -/
theorem stepKeepsTheInvariant : Obligations.StepKeepsTheInvariant := fun s t hs hstep => by
  have h := (inv_iff s).1 hs
  rw [inv_iff]
  cases stepsTo_of_step hstep with
  | wait => exact h
  | reject c rest ht =>
    rw [← h.endTask_eq ht]
    exact invariant_answer_endTask (s := { s with calls := rest }) ⟨h.cfg, h.cmdChans, h.frmChans⟩ .rejected
  | call c rest t ht hc ha hb =>
    refine hb.invariant ⟨h.cfg, h.cmdChans, h.frmChans⟩ ?_ ((admissible_with_calls s rest c).trans ha)
    exact congrArg (fun u : State => { u with calls := rest }) (h.endTask_eq ht)
  | encodeNext ch id i rest ht hd => exact h.emitNext ht hd _
  | encodeEnd ch id => exact invariant_answer_endTask (h.setChan_bytes ch id _ _ h.output) _
  | decodeFound ch id i n ht hp hf => exact h.accept ht hp (step_of_probe_instr h ht hp hf).1
  | decodeSkip ch id b ht hp => exact h.takeSkip ht hp b
  | decodeEnd ch id ht =>
    exact invariant_answer_endTask (h.setChan_seq ch id _ ((taskWf_decode ht).1 h.task).1) _
  | symbolFound v ht hp => exact h.acceptSym ht hp v
  | symbolFail => exact invariant_answer_endTask h.toStored _
  | symbolEnd => exact invariant_answer_endTask h.toStored _

/-! ## The calls on a channel -/

theorem Stored.rising_chans {s : State} (h : Stored s) (ch : Channel) : rising (s.chans ch) = true :=
  ((chansWf_iff ch _).1 (h.chans ch)).1

/-- Settles O54: each of the three calls is admissible and ends in its step; `clear` sets the one channel. -/
theorem clearAndGetFollowTheirRule : Obligations.ClearAndGetFollowTheirRule := fun s ch id rest hs ht => by
  have h := (inv_iff s).1 hs
  refine ⟨fun hc => ?_, fun hc => ?_, fun hc => ?_⟩
  · have hcleared : (State.setChan { s with calls := rest } ch id Chan.empty).chan ch id = Chan.empty := by
      refine chan_setChan_same _ ch id Chan.empty ?_
      have := h.rising_chans ch
      cases ch <;> exact this
    refine ⟨answer .done (State.setChan { s with calls := rest } ch id Chan.empty), ?_, ?_, ?_, ?_, ?_, ?_, ?_, ?_⟩
    · exact step_admitted ht hc rfl
    · exact congrArg Chan.seq hcleared
    · exact congrArg Chan.length hcleared
    · simp
    · simp
    · simpa using ht
    · simp
    · exact fun ch' id' hne => chan_setChan_other { s with calls := rest } ch ch' id id' Chan.empty hne
  · rw [step_admitted ht hc rfl]
    cases ch <;> rfl
  · rw [step_admitted ht hc rfl]
    cases ch <;> rfl

end Sys2Proof.Machine

/-! Whole runs of the machine: a call that takes several steps, followed to its end. A decode follows the pure decode's
induction, an encode the sequence, a symbol decode the bytes (R200, R201, R271, R171, R313). -/

namespace Sys2Proof.Machine

/-! ## Steps in a row -/

theorem run_succ_of_step {s t : State} (k : Nat) (h : step s = .next t) :
    Host.Core.run core (k + 1) s = Host.Core.run core k t := by
  have hcore : core.step s = .next t := h
  simp only [Host.Core.run, hcore]

theorem run_one_of_step {s t : State} (h : step s = .next t) : Host.Core.run core 1 s = .next t :=
  run_succ_of_step 0 h

/-! ## Setting a channel twice -/

theorem lt_of_mem_keys_cons {α : Type} {a : Nat} {v : α} {t : List (Nat × α)} (h : rising ((a, v) :: t) = true)
    {k : Nat} (hk : k ∈ t.map Prod.fst) : a < k :=
  (List.pairwise_cons.1 ((rising_iff_pairwise _).1 h)).1 k hk

theorem rising_tail {α : Type} {e : Nat × α} {t : List (Nat × α)} (h : rising (e :: t) = true) : rising t = true := by
  rw [rising_iff_pairwise] at h ⊢
  exact (List.pairwise_cons.1 h).2

theorem findKey_head {α : Type} (a : Nat) (v : α) (t : List (Nat × α)) : findKey ((a, v) :: t) a = some v :=
  if_pos rfl

theorem findKey_of_lt_head {α : Type} {a k : Nat} {v : α} {t : List (Nat × α)} (h : rising ((a, v) :: t) = true)
    (hk : k < a) : findKey ((a, v) :: t) k = none := by
  refine findKey_none_of_not_mem _ k fun hmem => ?_
  rcases List.mem_cons.1 hmem with rfl | hmem
  · exact Nat.lt_irrefl _ hk
  · exact Nat.lt_asymm hk (lt_of_mem_keys_cons h hmem)

/-- Rising tables that list the same values are the same. -/
theorem rising_ext {α : Type} (t u : List (Nat × α)) (ht : rising t = true) (hu : rising u = true)
    (h : ∀ k, findKey t k = findKey u k) : t = u := by
  induction t generalizing u with
  | nil =>
    cases u with
    | nil => rfl
    | cons f u =>
      have := h f.1
      rw [findKey_head] at this
      cases this
  | cons e t ih =>
    obtain ⟨a, v⟩ := e
    cases u with
    | nil =>
      have := h a
      rw [findKey_head] at this
      cases this
    | cons f u =>
      obtain ⟨b, w⟩ := f
      rcases Nat.lt_trichotomy a b with hab | rfl | hab
      · have := h a
        rw [findKey_head, findKey_of_lt_head hu hab] at this
        cases this
      · have hvw := h a
        rw [findKey_head, findKey_head, Option.some.injEq] at hvw
        subst hvw
        refine congrArg _ (ih u (rising_tail ht) (rising_tail hu) fun k => ?_)
        by_cases hk : k = a
        · subst hk
          rw [findKey_none_of_not_mem t k fun hm => Nat.lt_irrefl _ (lt_of_mem_keys_cons ht hm),
            findKey_none_of_not_mem u k fun hm => Nat.lt_irrefl _ (lt_of_mem_keys_cons hu hm)]
        · have := h k
          simpa only [findKey, if_neg hk] using this
      · have := h b
        rw [findKey_head, findKey_of_lt_head ht hab] at this
        cases this

theorem findKey_putChan_same (t : List (Nat × Chan)) (id : Nat) (x : Chan) (h : rising t = true) :
    findKey (putChan t id x) id = if x = Chan.empty then none else some x := by
  unfold putChan
  split
  · exact findKey_dropKey_same t id h
  · exact findKey_putKey_same t id x

theorem findKey_putChan_other (t : List (Nat × Chan)) {id k : Nat} (x : Chan) (h : k ≠ id) :
    findKey (putChan t id x) k = findKey t k := by
  unfold putChan
  split
  · exact findKey_dropKey_other t h
  · exact findKey_putKey_other t x h

theorem putChan_putChan (t : List (Nat × Chan)) (id : Nat) (x y : Chan) (h : rising t = true) :
    putChan (putChan t id x) id y = putChan t id y := by
  have hx := rising_putChan t id x h
  refine rising_ext _ _ (rising_putChan _ id y hx) (rising_putChan t id y h) fun k => ?_
  by_cases hk : k = id
  · subst hk
    rw [findKey_putChan_same _ k y hx, findKey_putChan_same t k y h]
  · rw [findKey_putChan_other _ y hk, findKey_putChan_other t x hk, findKey_putChan_other t y hk]

theorem setChan_setChan (s : State) (ch : Channel) (id : Nat) (x y : Chan) (h : rising (s.chans ch) = true) :
    (s.setChan ch id x).setChan ch id y = s.setChan ch id y := by
  cases ch with
  | command =>
    exact congrArg (fun t => { s with cmdChans := t }) (putChan_putChan s.cmdChans id x y h)
  | frame =>
    exact congrArg (fun t => { s with frmChans := t }) (putChan_putChan s.frmChans id x y h)

theorem endTask_setChan (s : State) (ch : Channel) (id : Nat) (x : Chan) :
    endTask (s.setChan ch id x) = (endTask s).setChan ch id x := by
  cases ch <;> rfl

/-! ## A decode -/

/-- A decode of `buf` by a channel is running. -/
structure Reads (ch : Channel) (id : Nat) (buf : List Byte) (s : State) : Prop where
  task : s.task = .decode ch id
  input : s.input = ofBytes buf
  inLen : s.inLen = buf.length

theorem Reads.exact {ch : Channel} {id : Nat} {buf : List Byte} {s : State} (h : Reads ch id buf s) :
    s.input.exact s.inLen = true := by
  rw [h.input, h.inLen]
  exact Memory.exact_ofBytes buf

theorem Reads.window {ch : Channel} {id : Nat} {buf : List Byte} {s : State} (h : Reads ch id buf s) :
    window s = buf.drop s.pos :=
  window_ofBytes s buf h.input h.inLen

theorem Reads.accept {ch : Channel} {id : Nat} {buf : List Byte} {s : State} (h : Reads ch id buf s) (i : Instr)
    (n : Nat) : Reads ch id buf (accept i n s) :=
  ⟨h.task, h.input, h.inLen⟩

theorem Reads.takeSkip {ch : Channel} {id : Nat} {buf : List Byte} {s : State} (h : Reads ch id buf s) (b : Byte) :
    Reads ch id buf (takeSkip b s) :=
  ⟨h.task, h.input, h.inLen⟩

/-- What a decode that stands at `s` ends in when the rest of the buffer gives `r`. -/
def decodeResult (ch : Channel) (id : Nat) (s : State) (r : List Instr × List Skipped) : State :=
  answer (.decoded (s.out ++ r.1) (s.diag ++ r.2))
    (endTask (s.setChan ch id { s.chan ch id with seq := s.out ++ r.1 }))

theorem finishDecode_eq_decodeResult (ch : Channel) (id : Nat) (s : State) :
    finishDecode ch id s = decodeResult ch id s ([], []) := by
  simp only [finishDecode, decodeResult, List.append_nil]

theorem decodeResult_accept (ch : Channel) (id : Nat) (s : State) (i : Instr) (n : Nat)
    (r : List Instr × List Skipped) :
    decodeResult ch id (accept i n s) r = decodeResult ch id s (i :: r.1, r.2) := by
  simp only [decodeResult, accept_out, accept_diag, List.append_assoc, List.singleton_append]
  cases ch <;> rfl

theorem decodeResult_takeSkip (ch : Channel) (id : Nat) (s : State) (b : Byte) (r : List Instr × List Skipped) :
    decodeResult ch id (takeSkip b s) r = decodeResult ch id s (r.1, { pos := s.pos, byte := b } :: r.2) := by
  simp only [decodeResult, takeSkip_out, takeSkip_diag, List.append_assoc, List.singleton_append]
  cases ch <;> rfl

/-- The number of steps of a decode with result `r`: one for each record and each skip, and one to end. -/
def decodeSteps (r : List Instr × List Skipped) : Nat := r.1.length + r.2.length + 1

theorem decodeSteps_found (i : Instr) (r : List Instr × List Skipped) :
    decodeSteps (i :: r.1, r.2) = decodeSteps r + 1 := by
  simp only [decodeSteps, List.length_cons]
  omega

theorem decodeSteps_skip (e : Skipped) (r : List Instr × List Skipped) :
    decodeSteps (r.1, e :: r.2) = decodeSteps r + 1 := by
  simp only [decodeSteps, List.length_cons]
  omega

theorem drop_pos_lt {buf bs : List Byte} {pos : Nat} (h : buf.drop pos = bs) (hne : bs ≠ []) : pos < buf.length := by
  by_contra hlong
  exact hne (h.symm.trans (List.drop_eq_nil_of_le (Nat.le_of_not_lt hlong)))

/-- What it is for the machine to follow the pure decode from offset `pos` on, where `bs` remain and give `r`. -/
def Follows (c : Config) (ch : Channel) (id : Nat) (buf : List Byte) (pos : Nat) (bs : List Byte)
    (r : List Instr × List Skipped) : Prop :=
  buf.drop pos = bs → ∀ s, Reads ch id buf s → s.cfg = c → s.pos = pos →
    Host.Core.run core (decodeSteps r) s = .next (decodeResult ch id s r)

section follows

variable {c : Config} (hc : c.frameLen = 8) (ch : Channel) (id : Nat) (buf : List Byte)

theorem follows_nil (pos : Nat) : Follows c ch id buf pos [] ([], []) := by
  rintro hdrop s hs rfl rfl
  have hend : ¬ s.pos < s.inLen := by
    have := List.drop_eq_nil_iff.1 hdrop
    rw [hs.inLen]
    omega
  have hstep := step_decode_end s ch id hs.task hend
  rw [finishDecode_eq_decodeResult] at hstep
  exact run_one_of_step hstep

include hc

theorem follows_found (pos : Nat) (bs : List Byte) (i : Instr) (n : Nat) (r : List Instr × List Skipped)
    (hp : probe c ch bs = .instr i n) (g : GoodParse c ch.link bs i n)
    (ih : Follows c ch id buf (pos + n) (bs.drop n) r) : Follows c ch id buf pos bs (i :: r.1, r.2) := by
  rintro hdrop s hs rfl rfl
  have hne : bs ≠ [] := by
    have hpos := g.pos
    have hfits := g.fits
    rw [← List.length_pos_iff]
    omega
  have hlt : s.pos < s.inLen := hs.inLen ▸ drop_pos_lt hdrop hne
  have hstep := step_decode_more s ch id hs.task hlt
  rcases decodeStep_cases s ch id hc hs.task hs.exact hlt with ⟨i', n', hp', -, hnext⟩ | ⟨b, hp', -, -⟩
  · rw [hs.window, hdrop, hp] at hp'
    cases hp'
    rw [decodeSteps_found, run_succ_of_step _ (hstep.trans hnext), ← decodeResult_accept ch id s i n r]
    exact ih (by rw [← hdrop, List.drop_drop]) _ (hs.accept i n) rfl rfl
  · rw [hs.window, hdrop, hp] at hp'
    cases hp'

theorem follows_skip (pos : Nat) (b : Byte) (bs : List Byte) (r : List Instr × List Skipped)
    (hp : probe c ch (b :: bs) = .undecodable) (ih : Follows c ch id buf (pos + 1) bs r) :
    Follows c ch id buf pos (b :: bs) (r.1, { pos := pos, byte := b } :: r.2) := by
  rintro hdrop s hs rfl rfl
  have hlt : s.pos < s.inLen := hs.inLen ▸ drop_pos_lt hdrop (List.cons_ne_nil b bs)
  have hbyte : memRead s.input s.pos = some b := by
    have hhead := List.getElem?_drop (xs := buf) (i := s.pos) (j := 0)
    rw [hs.input, memRead_ofBytes, ← Nat.add_zero s.pos, ← hhead, hdrop]
    rfl
  have hstep := step_decode_more s ch id hs.task hlt
  rcases decodeStep_cases s ch id hc hs.task hs.exact hlt with ⟨i, n, hp', -, -⟩ | ⟨b', -, hbyte', hnext⟩
  · rw [hs.window, hdrop, hp] at hp'
    cases hp'
  · obtain rfl : b = b' := Option.some.inj (hbyte.symm.trans hbyte')
    rw [decodeSteps_skip, run_succ_of_step _ (hstep.trans hnext), ← decodeResult_takeSkip ch id s b r]
    exact ih (by rw [← List.drop_drop, hdrop]; rfl) _ (hs.takeSkip b) rfl rfl

/-- The machine follows the pure decode from the start of the buffer. -/
theorem follows_decodeStream : Follows c ch id buf 0 buf (decodeStream c ch buf) :=
  decodeStream_induction hc (follows_nil ch id buf) (follows_found hc ch id buf) (follows_skip hc ch id buf) buf

end follows

/-- A decode that has just begun, on a machine that had no working state. -/
theorem run_startDecode {u : State} (hc : u.cfg.frameLen = 8) (he : endTask u = u) (ch : Channel) (id : Nat)
    (buf : List Byte) :
    Host.Core.run core (decodeSteps (decodeStream u.cfg ch buf)) (startDecode (.decode ch id) buf u) =
      .next (answer (.decoded (decodeStream u.cfg ch buf).1 (decodeStream u.cfg ch buf).2)
        (u.setChan ch id { u.chan ch id with seq := (decodeStream u.cfg ch buf).1 })) := by
  have hrun := follows_decodeStream hc ch id buf rfl (startDecode (.decode ch id) buf u) ⟨rfl, rfl, rfl⟩ rfl rfl
  have hback : (endTask u).setChan ch id { u.chan ch id with seq := (decodeStream u.cfg ch buf).1 } =
      u.setChan ch id { u.chan ch id with seq := (decodeStream u.cfg ch buf).1 } := by rw [he]
  rw [← hback]
  cases ch <;> exact hrun

/-- A call taken off leaves a machine with no working state. -/
theorem Invariant.endTask_take {s : State} (h : Invariant s) (ht : s.task = .idle) (rest : List Call) :
    endTask { s with calls := rest } = { s with calls := rest } :=
  congrArg (fun u : State => { u with calls := rest }) (h.endTask_eq ht)

/-- A decode call, run to its end, the number of steps given by what it finds. -/
theorem run_decode_call {s : State} {ch : Channel} {id : Nat} {buf : List Byte} {rest : List Call}
    (h : Invariant s) (ht : s.task = .idle) (hc : s.calls = .decode ch id buf :: rest)
    (ha : decodable s.cfg ch buf = true) :
    Host.Core.run core (decodeSteps (decodeStream s.cfg ch buf) + 1) s =
      .next (answer (.decoded (decodeStream s.cfg ch buf).1 (decodeStream s.cfg ch buf).2)
        (State.setChan { s with calls := rest } ch id
          { s.chan ch id with seq := (decodeStream s.cfg ch buf).1 })) := by
  have hstep : step s = .next (startDecode (.decode ch id) buf { s with calls := rest }) :=
    step_admitted ht hc ha
  exact (run_succ_of_step _ hstep).trans
    (run_startDecode (u := { s with calls := rest }) h.wellFormed.frameLen (h.endTask_take ht rest) ch id buf)

/-- There are no more steps than bytes: each record takes one byte or more. -/
theorem decodeSteps_le (c : Config) (ch : Channel) (buf : List Byte) (hc : c.frameLen = 8) :
    decodeSteps (decodeStream c ch buf) ≤ buf.length + 1 := by
  refine decodeStream_induction (P := fun _ bs r => decodeSteps r ≤ bs.length + 1) hc (fun _ => Nat.le_refl _) ?found
    ?skip buf
  case found =>
    intro pos bs i n r _ g ih
    have hpos := g.pos
    have hfits := g.fits
    rw [List.length_drop] at ih
    rw [decodeSteps_found]
    omega
  case skip =>
    intro pos b bs r _ ih
    rw [decodeSteps_skip, List.length_cons]
    omega

/-- Settles O48: the machine follows the pure decode step by step. -/
theorem decodeCallRunsTheStream : Obligations.DecodeCallRunsTheStream := fun s ch id buf rest hs ht hc ha => by
  have h := (inv_iff s).1 hs
  have hle := decodeSteps_le s.cfg ch buf h.wellFormed.frameLen
  exact ⟨_, Nat.succ_le_succ hle, run_decode_call h ht hc ha⟩

/-- Settles O59: both runs take the steps and return the values of the one pure decode. -/
theorem decodeForgetsHistory : Obligations.DecodeForgetsHistory :=
  fun s1 s2 ch id1 id2 buf rest1 rest2 hs1 hs2 ht1 ht2 hcfg hc1 hc2 ha => by
    have hrun1 := run_decode_call ((inv_iff s1).1 hs1) ht1 hc1 ha
    have hrun2 := run_decode_call ((inv_iff s2).1 hs2) ht2 hc2 (hcfg ▸ ha)
    rw [← hcfg] at hrun2
    refine ⟨_, _, _, (decodeStream s1.cfg ch buf).1, (decodeStream s1.cfg ch buf).2, hrun1, hrun2, ?_, ?_⟩
    · rw [answer_returns, setChan_returns]
    · rw [answer_returns, setChan_returns]

/-! ## An encode -/

theorem emit_emit (xs ys : List Byte) (s : State) : emit ys (emit xs s) = emit (xs ++ ys) s := by
  simp only [emit, memWriteBytes_append, List.length_append, Nat.add_assoc]

/-- The records of an encode are written one after another with nothing between (R200, R270). -/
theorem run_encode (seq : List Instr) (s : State) (ch : Channel) (id : Nat) (ht : s.task = .encode ch id)
    (hd : s.todo = seq) (hwf : ∀ i ∈ seq, i.wf = true) :
    Host.Core.run core (seq.length + 1) s =
      .next (finishEncode ch id (emit (encodeStream s.cfg seq) { s with todo := [] })) := by
  induction seq generalizing s with
  | nil =>
    have hstep := step_encode_nil s ch id ht hd
    have hsame : { s with todo := [] } = s := by rw [← hd]
    rw [hsame]
    exact run_one_of_step hstep
  | cons i seq ih =>
    have hi := hwf i List.mem_cons_self
    have hstep : step s = .next (emit (encode s.cfg i) { s with todo := seq }) := by
      rw [step_encode_cons s ch id i seq ht hd]
      exact exec_writing hi (by rw [ht]; rfl) rfl
    rw [List.length_cons, run_succ_of_step _ hstep,
      ih (emit (encode s.cfg i) { s with todo := seq }) ht rfl fun j hj => hwf j (List.mem_cons_of_mem i hj),
      encodeStream_cons, ← emit_emit]
    rfl

theorem length_encodeStream (c : Config) (hc : c.frameLen = 8) (seq : List Instr) (h : ∀ i ∈ seq, i.wf = true) :
    (encodeStream c seq).length = totalLen c seq := by
  induction seq with
  | nil => rfl
  | cons i seq ih =>
    rw [encodeStream_cons, List.length_append, encode_length c i hc (h i List.mem_cons_self),
      ih fun j hj => h j (List.mem_cons_of_mem i hj)]
    rfl

theorem bytesFrom_ofBytes_all (bs : List Byte) : bytesFrom (ofBytes bs) 0 bs.length = bs :=
  bytesFrom_ofBytes bs 0

/-- What an encode that began at `v` and wrote `bs` ends in: the bytes are returned and held by the channel. -/
theorem finishEncode_of_startEncode (v : State) (ch : Channel) (id : Nat) (seq : List Instr) (bs : List Byte) :
    finishEncode ch id (emit bs { startEncode (.encode ch id) seq v with todo := [] }) =
      answer (.encoded bs bs.length)
        ((endTask v).setChan ch id { v.chan ch id with bytes := ofBytes bs, length := bs.length }) := by
  rw [finishEncode, endTask_setChan]
  simp only [emit_outBuf, emit_off, startEncode_outBuf, startEncode_off, Nat.zero_add]
  rw [← ofBytes, bytesFrom_ofBytes_all]
  rfl

/-- An encode that has just begun, on a machine that had no working state. -/
theorem run_startEncode {u : State} (hc : u.cfg.frameLen = 8) (he : endTask u = u) (ch : Channel) (id : Nat)
    (hrising : rising (u.chans ch) = true) (seq : List Instr) (hwf : ∀ i ∈ seq, i.wf = true) :
    Host.Core.run core (seq.length + 1)
        (startEncode (.encode ch id) seq (u.setChan ch id { u.chan ch id with seq := seq })) =
      .next (answer (.encoded (encodeStream u.cfg seq) (totalLen u.cfg seq))
        (u.setChan ch id
          { seq := seq, bytes := ofBytes (encodeStream u.cfg seq), length := totalLen u.cfg seq })) := by
  have hrun := run_encode seq (startEncode (.encode ch id) seq (u.setChan ch id { u.chan ch id with seq := seq })) ch id
    rfl rfl hwf
  rw [finishEncode_of_startEncode, startEncode_cfg, setChan_cfg, length_encodeStream u.cfg hc seq hwf, endTask_setChan,
    he, chan_setChan_same u ch id _ hrising, setChan_setChan u ch id _ _ hrising] at hrun
  exact hrun

/-- Settles O49: the call sets `seq`, the records are written one after another, and the end stores what was written. -/
theorem encodeCallRunsTheStream : Obligations.EncodeCallRunsTheStream := fun s ch id seq rest hs ht hc ha => by
  have h := (inv_iff s).1 hs
  have hwf : ∀ i ∈ seq, i.wf = true := fun i hi => (mem_seqWf (seqWf_of_encodable ha) hi).1
  have hrising : rising (State.chans { s with calls := rest } ch) = true := by
    have := h.rising_chans ch
    cases ch <;> exact this
  have hstep : step s = .next (startEncode (.encode ch id) seq
      (State.setChan { s with calls := rest } ch id { State.chan { s with calls := rest } ch id with seq := seq })) :=
    step_admitted ht hc ha
  exact (run_succ_of_step _ hstep).trans
    (run_startEncode (u := { s with calls := rest }) h.wellFormed.frameLen (h.endTask_take ht rest) ch id hrising seq hwf)

/-! ## The calls of one step -/

theorem finishPack_emit_endTask (bs : List Byte) (s : State) :
    finishPack (emit bs (endTask s)) = answer (.encoded bs bs.length) (endTask s) := by
  simp only [finishPack, emit_outBuf, emit_off, endTask_outBuf, endTask_off, Nat.zero_add, endTask_emit,
    endTask_endTask]
  rw [← ofBytes, bytesFrom_ofBytes_all]

theorem step_pack {s : State} {i : Instr} {rest : List Call} (h : Invariant s) (ht : s.task = .idle)
    (hc : s.calls = .pack i :: rest) (hi : i.wf = true) (hl : i.link ≠ .symbol)
    (hfits : fits s.cfg.bufMax (wireLen s.cfg i) = true) :
    step s = .next (answer (.encoded (encode s.cfg i) (wireLen s.cfg i)) { s with calls := rest }) := by
  have ha : admissible s (.pack i) = true := by
    simp only [admissible, hi, hfits, bne_iff_ne.2 hl, Bool.and_self]
  have hpack : beginAdmitted (.pack i) { s with calls := rest } =
      .next (finishPack (emit (encode s.cfg i) (endTask { s with calls := rest }))) := packStep_of_wf i _ hi
  rw [step_admitted ht hc ha, hpack, finishPack_emit_endTask, h.endTask_take ht rest,
    encode_length s.cfg i h.wellFormed.frameLen hi]

/-- Settles O50: each call is admissible and answered in its step; the symbol table is injective, so `SYM.DEC` finds the
one entry. -/
theorem singleStepCallsAnswerAtOnce : Obligations.SingleStepCallsAnswerAtOnce := fun s rest hs ht => by
  have h := (inv_iff s).1 hs
  refine ⟨fun i hc hi hl hfits => step_pack h ht hc hi hl hfits, fun v hc => ?symEnc, fun v b hc hb => ?symDec,
    fun b hc hb => ?symDecNone, fun v buf p hc hp hfits => ?command, fun v buf p hc hp hfits => ?frame⟩
  case symEnc => exact ⟨symEnc s.cfg v, symEnc_getElem? s.cfg v, step_admitted ht hc rfl⟩
  case symDec =>
    obtain rfl : symEnc s.cfg v = b := Option.some.inj ((symEnc_getElem? s.cfg v).symm.trans hb)
    rw [← symDec_symEnc s.cfg h.wellFormed.sym v]
    exact step_admitted ht hc rfl
  case symDecNone =>
    rw [← (symDec_none_iff s.cfg b).2 hb]
    exact step_admitted ht hc rfl
  case command => exact step_admitted ht hc (by simp only [admissible, hp, hfits, decide_true, Bool.and_self])
  case frame => exact step_admitted ht hc (by simp only [admissible, hp, hfits, decide_true, Bool.and_self])

/-! ## A symbol decode -/

/-- A symbol decode of `buf` is running. -/
structure ReadsSyms (buf : List Byte) (s : State) : Prop where
  task : s.task = .unsyms
  input : s.input = ofBytes buf
  inLen : s.inLen = buf.length

/-- The values found so far, then those of the bytes that remain, or nothing (R171). -/
def symbolsResult (s : State) (bs : List Byte) : State :=
  answer (.symbols ((unsyms s.cfg bs.length bs).map fun vs => s.out.filterMap symValue ++ vs)) (endTask s)

theorem finishUnsyms_eq_symbolsResult (s : State) : finishUnsyms s = symbolsResult s [] := by
  simp [finishUnsyms, symbolsResult, unsyms]

theorem failUnsyms_eq_symbolsResult (s : State) (b : Byte) (bs : List Byte) (hb : symDec s.cfg b = none) :
    failUnsyms s = symbolsResult s (b :: bs) := by
  simp [failUnsyms, symbolsResult, unsyms, hb]

theorem symbolsResult_accept (s : State) (b : Byte) (bs : List Byte) (v : Group) (hb : symDec s.cfg b = some v) :
    symbolsResult (accept (.sym v) 1 s) bs = symbolsResult s (b :: bs) := by
  cases hbs : unsyms s.cfg bs.length bs <;> simp [symbolsResult, unsyms, hb, hbs, symValue]

theorem decodeSymbol_eq_instr_iff (c : Config) (b : Byte) (bs : List Byte) (v : Group) :
    decodeSymbol c (b :: bs) = .instr (.sym v) 1 ↔ symDec c b = some v := by
  cases hb : symDec c b <;> simp [decodeSymbol, hb]

theorem decodeSymbol_eq_undecodable_iff (c : Config) (b : Byte) (bs : List Byte) :
    decodeSymbol c (b :: bs) = .undecodable ↔ symDec c b = none := by
  cases hb : symDec c b <;> simp [decodeSymbol, hb]

/-- One step for each symbol, and one to end; a byte that is no symbol ends the whole (R171). -/
theorem run_symbols (buf bs : List Byte) (s : State) (hs : ReadsSyms buf s) (hdrop : buf.drop s.pos = bs) :
    ∃ n, n ≤ bs.length + 1 ∧ Host.Core.run core n s = .next (symbolsResult s bs) := by
  induction bs generalizing s with
  | nil =>
    have hend : ¬ s.pos < s.inLen := by
      have := List.drop_eq_nil_iff.1 hdrop
      rw [hs.inLen]
      omega
    have hstep := step_unsyms_end s hs.task hend
    rw [finishUnsyms_eq_symbolsResult] at hstep
    exact ⟨1, Nat.le_refl 1, run_one_of_step hstep⟩
  | cons b bs ih =>
    have hlt : s.pos < s.inLen := hs.inLen ▸ drop_pos_lt hdrop (List.cons_ne_nil b bs)
    have hstep := step_unsyms_more s hs.task hlt
    have hwindow : window s = b :: bs := (window_ofBytes s buf hs.input hs.inLen).trans hdrop
    rcases symbolStep_cases s hs.task with ⟨v, hfound, hnext⟩ | ⟨hfound, hnext⟩
    · rw [hwindow] at hfound
      have hb := (decodeSymbol_eq_instr_iff s.cfg b bs v).1 hfound
      have hrest : buf.drop (s.pos + 1) = bs := by
        rw [← List.drop_drop, hdrop]
        rfl
      obtain ⟨n, hn, hrun⟩ := ih (accept (.sym v) 1 s) ⟨hs.task, hs.input, hs.inLen⟩ hrest
      refine ⟨n + 1, Nat.succ_le_succ hn, ?_⟩
      rw [run_succ_of_step n (hstep.trans hnext), ← symbolsResult_accept s b bs v hb]
      exact hrun
    · rw [hwindow] at hfound
      have hb := (decodeSymbol_eq_undecodable_iff s.cfg b bs).1 hfound
      refine ⟨1, Nat.succ_le_succ (Nat.zero_le _), ?_⟩
      rw [← failUnsyms_eq_symbolsResult s b bs hb]
      exact run_one_of_step (hstep.trans hnext)

/-- `UNSYMS` of `k` bytes reads no byte beyond them. -/
theorem unsyms_take (c : Config) (k : Nat) (bs : List Byte) : unsyms c k (bs.take k) = unsyms c k bs := by
  induction k generalizing bs with
  | zero => rfl
  | succ k ih =>
    cases bs with
    | nil => rfl
    | cons b bs => simp only [List.take_succ_cons, unsyms, ih]

/-- A symbol decode that has just begun, on a machine that had no working state. -/
theorem run_startDecode_unsyms {u : State} (he : endTask u = u) (bs : List Byte) :
    ∃ n, n ≤ bs.length + 1 ∧ Host.Core.run core n (startDecode .unsyms bs u) =
      .next (answer (.symbols (unsyms u.cfg bs.length bs)) u) := by
  have hresult : symbolsResult (startDecode .unsyms bs u) bs = answer (.symbols (unsyms u.cfg bs.length bs)) u := by
    have hend : endTask (startDecode .unsyms bs u) = u := he
    simp [symbolsResult, hend]
  rw [← hresult]
  exact run_symbols bs bs (startDecode .unsyms bs u) ⟨rfl, rfl, rfl⟩ rfl

/-- Settles O51: the call begins a symbol decode of the `k` bytes, which is run to its end. -/
theorem unsymsCallDecodesOrFailsWhole : Obligations.UnsymsCallDecodesOrFailsWhole :=
  fun s buf q k rest hs ht hc hlen hmax => by
    have h := (inv_iff s).1 hs
    have ha : admissible s (.unsyms buf q k) = true := by
      simp only [admissible, hlen, hmax, fits, decide_true, Bool.and_self]
    have hk : ((buf.drop q).take k).length = k := by
      rw [List.length_take, List.length_drop]
      omega
    obtain ⟨n, hn, hrun⟩ := run_startDecode_unsyms (h.endTask_take ht rest) ((buf.drop q).take k)
    rw [hk] at hn
    rw [hk, unsyms_take] at hrun
    exact ⟨n + 1, Nat.succ_le_succ hn, (run_succ_of_step n (step_admitted ht hc ha)).trans hrun⟩

end Sys2Proof.Machine
